-- ==== Sys2Proof/Word.lean ====
section
/-! DEFINITION. The words HBP is made of (spec 00_scope R7, R8): all unsigned. -/

namespace Sys2Proof

/-- A command word or a host-visible register: `CMD_W` = 32 bits (R6). -/
abbrev Word := BitVec 32

/-- A symbol or a payload byte: `SYM_W` = 8 bits (R6). -/
abbrev Byte := BitVec 8

/-- An index into the node memory: `IDX_W` = 9 bits (R6). -/
abbrev NodeIndex := BitVec 9

/-- A bit string of R8: '0' is `false`, '1' is `true`, and the first bit is the first element. -/
abbrev BitString := List Bool

end Sys2Proof
end

