-- ==== Sys2Proof/Syntax.lean ====
section
/-! DEFINITION. The nine commands of HBP (30_encoding R47). -/

namespace Sys2Proof

/-- The nine commands of R47, one constructor per row of spec/opcode_table.json, with the operand fields of R52. -/
inductive Instr where
  /-- INIT, format N (R48, R61). -/
  | init
  /-- LDLEAF val, format V (R49, R62). -/
  | ldleaf (val : Byte)
  /-- LDINT, format I (R50, R63): `hasL`, `left`, `hasR`, `right`. -/
  | ldint (hasL : Bool) (left : NodeIndex) (hasR : Bool) (right : NodeIndex)
  /-- BUILD, format N (R48, R68). -/
  | build
  /-- ENC val, format V (R49, R73). -/
  | enc (val : Byte)
  /-- FLUSH, format N (R48, R74). -/
  | flush
  /-- SETPAD pad, format P (R51, R81). -/
  | setpad (pad : BitVec 3)
  /-- DECB val, format V (R49, R82). -/
  | decb (val : Byte)
  /-- DECEND, format N (R48, R83). -/
  | decend
deriving DecidableEq, Repr

end Sys2Proof
end

