-- ==== Sys2Proof/WellFormed.lean ====
section
/-! DEFINITION. Which commands have a word: the two conditions of LDINT (30_encoding R50, R53); every value of every
other operand is legal (R49, R51); and the reasons a word stands for no command (R53). -/

namespace Sys2Proof

/-- Why a word decodes to ILLEGAL: the three causes R53 and R88 list. -/
inductive Illegal where
  /-- Opcode 0x00 or 0x0A to 0xFF. -/
  | unassignedOpcode
  /-- A legal opcode with a nonzero reserved bit. -/
  | reservedBits
  /-- LDINT with a nonzero index field for an absent child. -/
  | absentChildIndex
deriving DecidableEq, Repr

/-- An index field is 0 when its child is absent (R50). -/
def childFieldOk (has : Bool) (idx : NodeIndex) : Bool := has || idx == 0

/-- The command has a word that decodes to it. -/
def Instr.wf : Instr → Bool
  | .init => true
  | .ldleaf _ => true
  | .ldint hasL left hasR right => childFieldOk hasL left && childFieldOk hasR right
  | .build => true
  | .enc _ => true
  | .flush => true
  | .setpad _ => true
  | .decb _ => true
  | .decend => true

end Sys2Proof
end

