-- ==== Sys2Proof/Decode.lean ====
section
/-! DEFINITION. The decoder of 30_encoding R53, total on all 2^32 words and rejecting by name, and the encoder of
R48 to R51. -/

namespace Sys2Proof

/-- `w[lo+width-1 : lo]` (R7). -/
def bitField (w : Word) (lo width : Nat) : BitVec width := w.extractLsb' lo width

/-- Accept a command when the reserved bits are all zero. -/
def whenReservedZero (zero : Bool) (i : Except Illegal Instr) : Except Illegal Instr :=
  if zero then i else .error .reservedBits

/-- Format N (R48): bits [23:0] must be 0. -/
def decodeN (w : Word) (i : Instr) : Except Illegal Instr :=
  whenReservedZero (bitField w 0 24 == 0) (.ok i)

/-- Format V (R49): bits [23:8] must be 0, `val = w[7:0]`. -/
def decodeV (w : Word) (i : Byte → Instr) : Except Illegal Instr :=
  whenReservedZero (bitField w 8 16 == 0) (.ok (i (bitField w 0 8)))

/-- Format P (R51): bits [23:3] must be 0, `pad = w[2:0]`. -/
def decodeP (w : Word) (i : BitVec 3 → Instr) : Except Illegal Instr :=
  whenReservedZero (bitField w 3 21 == 0) (.ok (i (bitField w 0 3)))

/-- Format I (R50, R52): `hasL = w[9]`, `left = w[8:0]`, `hasR = w[21]`, `right = w[20:12]`; bits [23:22] and
[11:10] must be 0, and an absent child's index must be 0. -/
def decodeI (w : Word) : Except Illegal Instr :=
  let i := Instr.ldint (w.getLsbD 9) (bitField w 0 9) (w.getLsbD 21) (bitField w 12 9)
  whenReservedZero (bitField w 22 2 == 0 && bitField w 10 2 == 0)
    (if i.wf then .ok i else .error .absentChildIndex)

/-- `decode` of R53: the command a word stands for, or why it is ILLEGAL. -/
def decode (w : Word) : Except Illegal Instr :=
  match (bitField w 24 8).toNat with
  | 0x01 => decodeN w .init
  | 0x02 => decodeV w .ldleaf
  | 0x03 => decodeI w
  | 0x04 => decodeN w .build
  | 0x05 => decodeV w .enc
  | 0x06 => decodeN w .flush
  | 0x07 => decodeP w .setpad
  | 0x08 => decodeV w .decb
  | 0x09 => decodeN w .decend
  | _ => .error .unassignedOpcode

/-- The opcode of a command (R47). -/
def Instr.opcode : Instr → Byte
  | .init => 0x01
  | .ldleaf _ => 0x02
  | .ldint _ _ _ _ => 0x03
  | .build => 0x04
  | .enc _ => 0x05
  | .flush => 0x06
  | .setpad _ => 0x07
  | .decb _ => 0x08
  | .decend => 0x09

/-- Bits [23:0] of a command's word, by its format (R48 to R51). -/
def Instr.operandBits : Instr → BitVec 24
  | .init => 0
  | .ldleaf val => 0#16 ++ val
  | .ldint hasL left hasR right =>
      0#2 ++ (BitVec.ofBool hasR ++ (right ++ (0#2 ++ (BitVec.ofBool hasL ++ left))))
  | .build => 0
  | .enc val => 0#16 ++ val
  | .flush => 0
  | .setpad pad => 0#21 ++ pad
  | .decb val => 0#16 ++ val
  | .decend => 0

/-- The word of a command (R47): the opcode in [31:24], the operands below. -/
def encode (i : Instr) : Word := i.opcode ++ i.operandBits

/-- The command the decoder reads from the `nbits` low bits of `w`, every bit above them 0. A command is ONE 32-bit
word (R47, R55), so bit k of the table's number is bit k of the word. -/
def decodeTableWord (nbits w : Nat) : Option Instr :=
  (decode (BitVec.ofNat 32 (w % 2 ^ nbits))).toOption

end Sys2Proof
end

