-- ==== Sys2Proof/Config.lean ====
section
/-! DEFINITION. The record type of the node memory (10_state R22), what HBP's implementation fixes (00_scope R6) and
the free values (93_implementation_defined). A constant without a body is open: no proof can see its value. -/

namespace Sys2Proof

/-- A record of the node memory (10_state R22), without the weight. -/
inductive Machine.NodeRec where
  /-- `Leaf`: the leaf's byte value. -/
  | leaf (value : Byte)
  /-- `Int`: whether each child exists and its index in NODE. -/
  | int (hasL : Bool) (left : NodeIndex) (hasR : Bool) (right : NodeIndex)
deriving DecidableEq, Repr, Inhabited

/-- `NODE_CAP` (R6): the number of entries of the node memory. -/
def Config.nodeCap : Nat := 511

/-- `OUT_CAP` - 1, open (R6, D13): any number from 0 to 2^32 - 2. -/
opaque Config.outCapPred : Fin 4294967295

/-- `OUT_CAP` (R6, D13), open: any number from 1 to 2^32 - 1 (log 1, DESIGN CHOICE: a register of the instance). -/
def Config.outCap : Word := BitVec.ofNat 32 (Config.outCapPred.val + 1)

/-- `REG_BASE` (R6, D24), open: where the platform maps REG; no rule reads it. -/
opaque Config.regBase : Nat

/-- `OUT_BASE` (R6, D24), open: where the platform maps OUT; no rule reads it. -/
opaque Config.outBase : Nat

/-- The k-th value drawn for a host read of OUT that R46 leaves unspecified (U4, U5): a free value (log 4). -/
opaque Config.freeByte : Nat → Byte

/-- The unspecified contents of NODE entry i when nothing of this session stands there (R22, U1): a free value (log 5). -/
opaque Config.freeNode : Nat → Machine.NodeRec

end Sys2Proof
end

