-- ==== Sys2Proof/Machine/State.lean ====
section
/-! DEFINITION. The architectural state of HBP (10_state R12) as plain data, the outcomes of a step, and the state
right after reset (R32). -/

namespace Sys2Proof.Machine

open Sys2Proof

/-- The session phase (R13). The code 6 is never written and is left out of the type, as R13 allows (log 8). -/
inductive Phase where
  /-- 0: a session is open, the tree is being loaded. -/
  | load
  /-- 1: the tree was validated and the code table built. -/
  | ready
  /-- 2: encode direction, at least one ENC was accepted. -/
  | enc
  /-- 3: decode direction, a SETPAD or a DECB was accepted. -/
  | dec
  /-- 4: an encode session ended with FLUSH. -/
  | doneE
  /-- 5: a decode session ended with DECEND. -/
  | doneD
  /-- 7: a command faulted. -/
  | fault
deriving DecidableEq, Repr

/-- The values of `err` (60_exceptions R88). The codes 10 to 15 are never written (log 8). -/
inductive ErrCode where
  /-- 0, ERR_NONE: no fault. -/
  | none
  /-- 1, ERR_ILLCMD: the word decodes to ILLEGAL. -/
  | illcmd
  /-- 2, ERR_SEQ: the command is not accepted in the current phase. -/
  | seq
  /-- 3, ERR_TREEFULL: NODE is full. -/
  | treefull
  /-- 4, ERR_TREE: the loaded records are no well-formed tree. -/
  | tree
  /-- 5, ERR_NOCODE: the symbol has no code. -/
  | nocode
  /-- 6, ERR_OVF: the command would write OUT at an address at or above OUT_CAP. -/
  | ovf
  /-- 7, ERR_TRAVERSAL: a payload bit has no corresponding child. -/
  | traversal
  /-- 8, ERR_PAD: padding declared but no payload byte given. -/
  | pad
  /-- 9, ERR_TRUNC: the payload ended inside a code. -/
  | trunc
deriving DecidableEq, Repr

/-- A memory: (address, value) pairs, the addresses strictly rising (`Memory.wf`, Machine/Ops.lean); an address that
is not listed has no value. -/
abbrev Memory (α : Type) := List (Nat × α)

/-- A VALID entry of the code table (R23): the code, first bit first. Its `len` is the string's length
(`CodeEntry.len`, Machine/Operands.lean), its `valid` is that the entry is listed (log 6). -/
structure CodeEntry where
  /-- The code of a byte value; `bits[0]` is the first bit emitted. -/
  bits : BitString
deriving DecidableEq, Repr

/-- One access of the host or the platform (20_memory R35, R39, R46; 70 R98, R102), the input of a step. A REG access
is 32 bits wide (R38). -/
inductive HostAccess where
  /-- Write a word at a byte offset of REG. -/
  | regWrite (offset : BitVec 8) (w : Word)
  /-- Read the word at a byte offset of REG. -/
  | regRead (offset : BitVec 8)
  /-- Read the byte of OUT at an address. -/
  | outRead (addr : Nat)
  /-- The platform's reset (R98, U17). -/
  | reset
deriving DecidableEq, Repr

/-- What the access served last returned to the host (log 3). -/
inductive Reply where
  /-- Nothing: a write, a reset, or no access yet. -/
  | none
  /-- The word of a REG read. -/
  | word (w : Word)
  /-- The byte of an OUT read. -/
  | byte (b : Byte)
deriving DecidableEq, Repr

/-- The reasons a step could stop with a fault: there are none. Every fault of HBP (60_exceptions R88) is a next state
in phase FAULT (R91), and an OUT read never faults (R46). -/
inductive Fault
deriving DecidableEq, Repr

/-- The reasons a step is refused. -/
inductive Refusal where
  /-- Raised by an arm of `exec` whose instruction has no meaning yet (no arm is left so). Safe: the model stops. -/
  | notModelled (mnemonic : String)
  /-- Raised by a REG access at an offset that is no multiple of 4: "a model refuses it" (20_memory R38, U6). Safe:
  the platform must not deliver one (log 13). -/
  | misalignedRegAccess (offset : BitVec 8)
deriving DecidableEq, Repr

/-- The architectural state (10_state R12), then the model's own fields. -/
structure State where
  /-- Session phase (R13). -/
  phase : Phase
  /-- Code of the fault that led to FAULT (R14). -/
  err : ErrCode
  /-- The command word that faulted (R14, R89). -/
  errinfo : Word
  /-- Padding count (R15). -/
  pad : BitVec 3
  /-- Bytes written to OUT, and the next address to write (R16). -/
  ocnt : Word
  /-- Input items accepted; wraps (R17). -/
  icnt : Word
  /-- Records loaded into NODE (R18). -/
  nnodes : BitVec 10
  /-- The packer's partial byte, left-aligned (R19). -/
  acc : Byte
  /-- How many bits of `acc` are pending (R19). -/
  accn : BitVec 3
  /-- The unpacker's held byte (R20). -/
  hold : Byte
  /-- A byte is held (R20). -/
  holdv : Bool
  /-- The decoder's position in the tree (R21). -/
  cur : NodeIndex
  /-- NODE (R22). -/
  node : Memory NodeRec
  /-- CODE, the valid entries (R23). -/
  code : Memory CodeEntry
  /-- OUT (R24). -/
  out : List Host.Cell
  /-- The model's own: OUT_CAP of this instance (00_scope R6); no rule writes it (log 1). -/
  outCap : Word
  /-- The model's own: the host's accesses to come, in its program order (20_memory R41; log 2). -/
  bus : List HostAccess
  /-- The model's own: what the last access returned (log 3). -/
  reply : Reply
  /-- The model's own: how many free bytes host reads of OUT have drawn (R46, U4; log 4). -/
  draws : Nat
deriving DecidableEq, Repr

/-- The state right after reset (R32, R98). The memories' contents are unspecified there: nothing is listed
(logs 5 to 7). -/
def State.reset : State where
  phase := .load
  err := .none
  errinfo := 0
  pad := 0
  ocnt := 0
  icnt := 0
  nnodes := 0
  acc := 0
  accn := 0
  hold := 0
  holdv := false
  cur := 0
  node := []
  code := []
  out := []
  outCap := Config.outCap
  bus := []
  reply := .none
  draws := 0

end Sys2Proof.Machine
end

