-- ==== Sys2Proof/Machine/Ops.lean ====
section
/-! DEFINITION. The named operations over memory and registers, fault entry (60_exceptions R91) and the start of a
session, which is also the only return from a fault (R93, 40 R61). -/

namespace Sys2Proof.Machine

open Sys2Proof

/-- What an outcome of this machine is. -/
abbrev Outcome := Host.Outcome State Fault Refusal

/-- The canonical form of a memory: addresses strictly rising. An unlisted address has no value, so no entry can
equal what an unlisted address reads as. -/
abbrev Memory.wf {α : Type} (m : Memory α) : Prop := (m.map Prod.fst).Pairwise (· < ·)

/-- What stands at an address; an unlisted address has no value. -/
def Memory.read {α : Type} : Memory α → Nat → Option α
  | [], _ => none
  | (k, v) :: m, a => if k = a then some v else Memory.read m a

/-- Put a value at an address, keeping the addresses in rising order. -/
def Memory.write {α : Type} : Memory α → Nat → α → Memory α
  | [], a, x => [(a, x)]
  | (k, v) :: m, a, x =>
    if a < k then (a, x) :: (k, v) :: m
    else if a = k then (a, x) :: m
    else (k, v) :: Memory.write m a x

/-- `MemWrite(OUT, ocnt, 1, b)` and `ocnt <- ocnt + 1` (20_memory R36). -/
def State.putOut (s : State) (b : Byte) : State :=
  { s with out := Memory.write s.out s.ocnt.toNat b, ocnt := s.ocnt + 1 }

/-- Write bytes at the cursor, the first one first (R36, 41 R73). -/
def State.putOuts (s : State) (bytes : List Byte) : State := bytes.foldl State.putOut s

/-- OUT has room for `n` more bytes: `ocnt + n ≤ OUT_CAP` (R36, 60_exceptions R88 ERR_OVF). -/
def State.roomFor (s : State) (n : Nat) : Bool := decide (s.ocnt.toNat + n ≤ s.outCap.toNat)

/-- `NODE[nnodes] <- r` and `nnodes <- nnodes + 1` (40 R62, R63). -/
def State.pushNode (s : State) (r : NodeRec) : State :=
  { s with node := Memory.write s.node s.nnodes.toNat r, nnodes := s.nnodes + 1 }

/-- Fault entry (60_exceptions R91): exactly `phase`, `err` and `errinfo` change. -/
def State.enterFault (s : State) (c : ErrCode) (w : Word) : State :=
  { s with phase := .fault, err := c, errinfo := w }

/-- The start of a session (40 R61, 10_state R32), by INIT or reset; also the only return from FAULT (60 R93). NODE
and OUT keep their contents, which become unreadable; no entry of CODE stays valid. -/
def State.openSession (s : State) : State :=
  { s with
    phase := .load, err := .none, errinfo := 0, pad := 0, ocnt := 0, icnt := 0, nnodes := 0
    acc := 0, accn := 0, hold := 0, holdv := false, cur := 0, code := [] }

/-- Raise a fault for the command word `w`, except in FAULT, where nothing is raised (60 R90 to R92). -/
def raiseFault (c : ErrCode) (w : Word) (s : State) : Outcome :=
  if s.phase = .fault then .next s else .next (s.enterFault c w)

/-- The frame of every command but INIT (60 R90 to R92, 70 R100): ignored in FAULT; ERR_SEQ outside the phases that
accept it; otherwise its body, whose writes are discarded when it raises. `w` is the command's word (R89). -/
def runCommand (w : Word) (accepted : List Phase) (body : State → Except ErrCode State) (s : State) : Outcome :=
  if s.phase = .fault then .next s
  else if s.phase ∈ accepted then
    match body s with
    | .ok t => .next t
    | .error c => raiseFault c w s
  else raiseFault .seq w s

end Sys2Proof.Machine
end

