-- ==== Sys2Proof/Machine/Operands.lean ====
section
/-! DEFINITION. Operand forms: bytes as bit strings (00_scope R9), the packer's pending bits (10_state R19), records
and codes as a command reads them (R22, R23, 40 R65). -/

namespace Sys2Proof.Machine

open Sys2Proof

/-- `bits8(b)` (R9): the eight bits of a byte, the most significant first. -/
def bits8 (b : Byte) : BitString := (List.range 8).map fun k => b.getLsbD (7 - k)

/-- The number a bit string writes, its first bit the most significant. -/
def bitsToNat (s : BitString) : Nat := s.foldl (fun n b => 2 * n + b.toNat) 0

/-- `byte8(s)` (R9), for a bit string of length 8; its value on another length, which R9 does not define, is the model's
choice (log 18, DESIGN CHOICE), and no rule asks for it. -/
def byte8 (s : BitString) : Byte := BitVec.ofNat 8 (bitsToNat s)

/-- The first `nb` whole bytes of a bit string: byte j is `byte8(s[8j .. 8j+8))` (41 R73). -/
def wholeBytes (nb : Nat) (s : BitString) : List Byte :=
  (List.range nb).map fun j => byte8 ((s.drop (8 * j)).take 8)

/-- A partial byte, left-aligned and filled with zeros (R19, 41 R73); 0 for the empty string. -/
def leftAligned (s : BitString) : Byte := byte8 (s ++ List.replicate (8 - s.length) false)

/-- `bits8(acc)[0..accn)` (R19): the bits encoded but not yet written. -/
def State.pending (s : State) : BitString := (bits8 s.acc).take s.accn.toNat

/-- `NODE[i]` (R22). An entry at or above `nnodes` has unspecified contents: reading it is a free value (log 5). -/
def State.nodeAt (s : State) (i : Nat) : NodeRec :=
  if i < s.nnodes.toNat then (Memory.read s.node i).getD (Config.freeNode i) else Config.freeNode i

/-- The valid entry `CODE[v]`, if there is one (R23). -/
def State.codeAt (s : State) (v : Byte) : Option CodeEntry := Memory.read s.code v.toNat

/-- `CODE[v].len` (R23). -/
def CodeEntry.len (e : CodeEntry) : Byte := BitVec.ofNat 8 e.bits.length

/-- A record is a `Leaf` (R22). -/
def NodeRec.isLeaf : NodeRec → Bool
  | .leaf _ => true
  | .int _ _ _ _ => false

/-- The child of a record on a side, `false` = left, `true` = right, if it has one (40 R65, 42 R79). A `Leaf` has
none. -/
def NodeRec.child : NodeRec → Bool → Option NodeIndex
  | .leaf _, _ => none
  | .int hasL left _ _, false => if hasL then some left else none
  | .int _ _ hasR right, true => if hasR then some right else none

end Sys2Proof.Machine
end

