-- ==== Sys2Proof/Machine/EncodePack.lean ====
section
/-! DEFINITION. The commands of 41_encode_pack: ENC, FLUSH. -/

namespace Sys2Proof.Machine

open Sys2Proof

/-- The body of ENC (R73): ERR_NOCODE, ERR_OVF, or the pending bits and the code as whole bytes in OUT and a new
partial byte. -/
def encBody (val : Byte) (s : State) : Except ErrCode State :=
  match s.codeAt val with
  | none => .error .nocode
  | some e =>
    let bits := s.pending ++ e.bits
    let nb := bits.length / 8
    let rest := bits.drop (8 * nb)
    if s.roomFor nb then
      .ok { s.putOuts (wholeBytes nb bits) with
            acc := leftAligned rest, accn := BitVec.ofNat 3 rest.length, icnt := s.icnt + 1, phase := .enc }
    else .error .ovf

/-- ENC (R73). -/
def execEnc (val : Byte) (s : State) : Outcome :=
  runCommand (encode (.enc val)) [.ready, .enc] (encBody val) s

/-- The body of FLUSH (R74): ERR_OVF, or the padded partial byte in OUT, the padding count and DONE_E. -/
def flushBody (s : State) : Except ErrCode State :=
  if s.accn = 0 then .ok { s with pad := 0, acc := 0, accn := 0, phase := .doneE }
  else if s.roomFor 1 then
    .ok { s.putOut s.acc with pad := BitVec.ofNat 3 (8 - s.accn.toNat), acc := 0, accn := 0, phase := .doneE }
  else .error .ovf

/-- FLUSH (R74). -/
def execFlush (s : State) : Outcome := runCommand (encode .flush) [.ready, .enc] flushBody s

end Sys2Proof.Machine
end

