-- ==== Sys2Proof/Machine/Tree.lean ====
section
/-! DEFINITION. The node memory as a tree: the well-formedness predicate `WF` (40 R66) and the code table of a
well-formed tree (R67). `n` is `nnodes` and `node i` is `NODE[i]`. -/

namespace Sys2Proof.Machine

open Sys2Proof

/-- The children of a record, left before right (R65). -/
def NodeRec.children (r : NodeRec) : List Nat :=
  ([r.child false, r.child true].filterMap id).map BitVec.toNat

/-- The child of every child slot of the records below `n` (R65); `parents(j)` has as many elements as `j` occurs
here. -/
def allChildren (n : Nat) (node : Nat → NodeRec) : List Nat :=
  (List.range n).flatMap fun i => (node i).children

/-- WF1: every child index is above its parent's and below `n`. -/
def wf1 (n : Nat) (node : Nat → NodeRec) : Bool :=
  (List.range n).all fun i => (node i).children.all fun c => decide (i < c ∧ c < n)

/-- WF2: every record but the root has exactly one parent slot. -/
def wf2 (n : Nat) (node : Nat → NodeRec) : Bool :=
  let cs := allChildren n node
  (List.range n).all fun j => j == 0 || cs.count j == 1

/-- A `Leaf`, or an `Int` with both children. -/
def NodeRec.strict : NodeRec → Bool
  | .leaf _ => true
  | .int hasL _ hasR _ => hasL && hasR

/-- WF3: every `Int` has both children, or the tree is the special shape. -/
def wf3 (n : Nat) (node : Nat → NodeRec) : Bool :=
  ((List.range n).all fun i => (node i).strict)
    || (n == 2 && node 0 == .int true 1 false 0 && (node 1).isLeaf)

/-- The value of a `Leaf`. -/
def NodeRec.leafValue : NodeRec → Option Byte
  | .leaf v => some v
  | .int _ _ _ _ => none

/-- The values of the leaves below `n`, in index order. -/
def leafValues (n : Nat) (node : Nat → NodeRec) : List Byte :=
  (List.range n).filterMap fun i => (node i).leafValue

/-- WF4: no two leaves have the same value. -/
def wf4 (n : Nat) (node : Nat → NodeRec) : Bool := decide (leafValues n node).Nodup

/-- `WF` (R66): the empty tree, or WF1 to WF4. -/
def treeWF (n : Nat) (node : Nat → NodeRec) : Bool :=
  n == 0 || (wf1 n node && wf2 n node && wf3 n node && wf4 n node)

/-- A leaf's code (R67): the accumulated string, normalised to "0" when it is empty. -/
def leafCode (path : BitString) : BitString := if path = [] then [false] else path

/-- `visit` of R67, left child first (the order is not observable, U15): record the code of every leaf below node
`i`, reached by `path`, in the table. The first argument bounds the depth; `nnodes` is enough on a well-formed tree
(log 12). -/
def visit (node : Nat → NodeRec) : Nat → Nat → BitString → Memory CodeEntry → Memory CodeEntry
  | 0, _, _, table => table
  | fuel + 1, i, path, table =>
    match node i with
    | .leaf v => Memory.write table v.toNat { bits := leafCode path }
    | .int hasL left hasR right =>
      let afterLeft := if hasL then visit node fuel left.toNat (path ++ [false]) table else table
      if hasR then visit node fuel right.toNat (path ++ [true]) afterLeft else afterLeft

/-- `build_codes` of R67 for a tree of `n` records, on top of a table; nothing when there is no record (R68). -/
def buildCodes (n : Nat) (node : Nat → NodeRec) (table : Memory CodeEntry) : Memory CodeEntry :=
  if n = 0 then table else visit node n 0 [] table

end Sys2Proof.Machine
end

