-- ==== Sys2Proof/Machine/TreeAndCodes.lean ====
section
/-! DEFINITION. The commands of 40_tree_and_codes: INIT, LDLEAF, LDINT, BUILD. -/

namespace Sys2Proof.Machine

open Sys2Proof

/-- INIT (R61): in every phase, FAULT included, opens a new session. -/
def execInit (s : State) : Outcome := .next s.openSession

/-- The body shared by the loads (R62, R63): ERR_TREEFULL, or append the record. -/
def loadRecord (r : NodeRec) (s : State) : Except ErrCode State :=
  if s.nnodes.toNat < Config.nodeCap then .ok (s.pushNode r) else .error .treefull

/-- LDLEAF (R62). -/
def execLdleaf (val : Byte) (s : State) : Outcome :=
  runCommand (encode (.ldleaf val)) [.load] (loadRecord (.leaf val)) s

/-- LDINT (R63). A term with a nonzero index for an absent child stands for an ILLEGAL word (R53): ERR_ILLCMD before
anything else (60 R90; log 10). -/
def execLdint (hasL : Bool) (left : NodeIndex) (hasR : Bool) (right : NodeIndex) (s : State) : Outcome :=
  let i := Instr.ldint hasL left hasR right
  if i.wf then runCommand (encode i) [.load] (loadRecord (.int hasL left hasR right)) s
  else raiseFault .illcmd (encode i) s

/-- The body of BUILD (R68): ERR_TREE, or the code table and READY. -/
def buildBody (s : State) : Except ErrCode State :=
  let n := s.nnodes.toNat
  if treeWF n s.nodeAt then .ok { s with code := buildCodes n s.nodeAt s.code, phase := .ready }
  else .error .tree

/-- BUILD (R68). -/
def execBuild (s : State) : Outcome := runCommand (encode .build) [.load] buildBody s

end Sys2Proof.Machine
end

