-- ==== Sys2Proof/Machine/UnpackDecode.lean ====
section
/-! DEFINITION. The commands of 42_unpack_decode: SETPAD, DECB, DECEND, and the walk they share (R80). -/

namespace Sys2Proof.Machine

open Sys2Proof

/-- One bit of `walk_bits` (R80): ERR_TRAVERSAL when the tree is empty or the current node has no child on that side;
a leaf reached is emitted (ERR_OVF when OUT is full) and the walk returns to the root. -/
def walkBit (b : Bool) (s : State) : Except ErrCode State :=
  if s.nnodes = 0 then .error .traversal
  else
    match (s.nodeAt s.cur.toNat).child b with
    | none => .error .traversal
    | some next =>
      match s.nodeAt next.toNat with
      | .leaf v => if s.roomFor 1 then .ok { s.putOut v with cur := 0 } else .error .ovf
      | .int _ _ _ _ => .ok { s with cur := next }

/-- `walk_bits` (R80): the bits in order; the first fault met is the one raised. -/
def walkBits : BitString → State → Except ErrCode State
  | [], s => .ok s
  | b :: rest, s =>
    match walkBit b s with
    | .ok t => walkBits rest t
    | .error c => .error c

/-- The body of SETPAD (R81): the padding count, and the decode direction. -/
def setpadBody (pad : BitVec 3) (s : State) : Except ErrCode State := .ok { s with pad := pad, phase := .dec }

/-- SETPAD (R81). -/
def execSetpad (pad : BitVec 3) (s : State) : Outcome :=
  runCommand (encode (.setpad pad)) [.ready] (setpadBody pad) s

/-- The walk over the first `k` bits of the held byte (R80). -/
def walkHeld (k : Nat) (s : State) : Except ErrCode State := walkBits ((bits8 s.hold).take k) s

/-- The body of DECB (R82): all 8 bits of a held byte are walked, then the new byte is held. -/
def decbBody (val : Byte) (s : State) : Except ErrCode State :=
  match (if s.holdv then walkHeld 8 s else .ok s) with
  | .ok t => .ok { t with hold := val, holdv := true, icnt := t.icnt + 1, phase := .dec }
  | .error c => .error c

/-- DECB (R82). -/
def execDecb (val : Byte) (s : State) : Outcome :=
  runCommand (encode (.decb val)) [.ready, .dec] (decbBody val) s

/-- The end check of DECEND (R83): ERR_TRUNC when the walk stopped inside a code. -/
def endPayload (s : State) : Except ErrCode State :=
  if s.cur = 0 then .ok { s with hold := 0, holdv := false, phase := .doneD } else .error .trunc

/-- The body of DECEND (R83): the first `8 - pad` bits of the held byte; ERR_PAD when padding has no byte. -/
def decendBody (s : State) : Except ErrCode State :=
  if s.holdv then
    match walkHeld (8 - s.pad.toNat) s with
    | .ok t => endPayload t
    | .error c => .error c
  else if s.pad = 0 then endPayload s
  else .error .pad

/-- DECEND (R83). -/
def execDecend (s : State) : Outcome := runCommand (encode .decend) [.ready, .dec] decendBody s

end Sys2Proof.Machine
end

