-- ==== Sys2Proof/Machine/Dispatch.lean ====
section
/-! DEFINITION. One arm per command: its meaning. -/

namespace Sys2Proof.Machine

open Sys2Proof

def exec (i : Instr) (s : State) : Host.Outcome State Fault Refusal :=
  match i with
  | .init => Sys2Proof.Machine.execInit s
  | .ldleaf val => Sys2Proof.Machine.execLdleaf val s
  | .ldint hasL left hasR right => Sys2Proof.Machine.execLdint hasL left hasR right s
  | .build => Sys2Proof.Machine.execBuild s
  | .enc val => Sys2Proof.Machine.execEnc val s
  | .flush => Sys2Proof.Machine.execFlush s
  | .setpad pad => Sys2Proof.Machine.execSetpad pad s
  | .decb val => Sys2Proof.Machine.execDecb val s
  | .decend => Sys2Proof.Machine.execDecend s

end Sys2Proof.Machine
end

