-- ==== Sys2Proof/Machine/Flags.lean ====
section
/-! DEFINITION. HBP has no condition codes (10_state R29): its flags are `holdv` and the valid bits of CODE. Here
stand the codes of `phase` and `err` and the words the host reads them in (R13, R26, 60 R88). -/

namespace Sys2Proof.Machine

open Sys2Proof

/-- The 3-bit value of `phase` (R13). -/
def Phase.code : Phase → BitVec 3
  | .load => 0
  | .ready => 1
  | .enc => 2
  | .dec => 3
  | .doneE => 4
  | .doneD => 5
  | .fault => 7

/-- The 4-bit value of `err` (60 R88). -/
def ErrCode.code : ErrCode → BitVec 4
  | .none => 0
  | .illcmd => 1
  | .seq => 2
  | .treefull => 3
  | .tree => 4
  | .nocode => 5
  | .ovf => 6
  | .traversal => 7
  | .pad => 8
  | .trunc => 9

/-- `STATUS` (R26): [2:0] phase, [3] 0, [6:4] accn, [7] holdv, [31:8] 0. -/
def State.status (s : State) : Word :=
  0#24 ++ (BitVec.ofBool s.holdv ++ (s.accn ++ (0#1 ++ s.phase.code)))

/-- `CODE[v].valid` (R23). -/
def State.codeValid (s : State) (v : Byte) : Bool := (s.codeAt v).isSome

/-- The session has a result (70 R103): only then is a host read of OUT defined (20 R46). -/
def State.done (s : State) : Bool := s.phase == .doneE || s.phase == .doneD

end Sys2Proof.Machine
end

