-- ==== Sys2Proof/Machine/Bus.lean ====
section
/-! DEFINITION. The host's side: the register space (10_state R25 to R27), reads of OUT (20_memory R46), reset
(70 R98), and the order in which accesses are served (R41). -/

namespace Sys2Proof.Machine

open Sys2Proof

/-- The word at an aligned offset of REG (R25 to R27): CMD (0x00) and the reserved offsets read 0. Its value 0 at a
misaligned offset is the model's choice (log 18, DESIGN CHOICE): such an access is refused and never reads it. -/
def State.regValue (s : State) (offset : BitVec 8) : Word :=
  if offset = 0x04 then s.status
  else if offset = 0x08 then s.err.code.setWidth 32
  else if offset = 0x0C then s.errinfo
  else if offset = 0x10 then s.pad.setWidth 32
  else if offset = 0x14 then s.ocnt
  else if offset = 0x18 then s.icnt
  else if offset = 0x1C then s.nnodes.setWidth 32
  else 0

/-- The byte at a byte address of REG on a platform that exposes it byte-addressed: little-endian (20_memory R37;
no rule reads it, log 17). -/
def State.regByte (s : State) (addr : BitVec 8) : Byte :=
  (s.regValue (addr &&& 0xFC)).extractLsb' (8 * (addr.toNat % 4)) 8

/-- A REG access must be at a multiple of 4 (R38). -/
def regAligned (offset : BitVec 8) : Bool := offset &&& 3 == 0

/-- The byte a host read of `OUT[addr]` is promised (R46): none outside a result. -/
def State.resultByte (s : State) (addr : Nat) : Option Byte :=
  if s.done && decide (addr < s.ocnt.toNat) then Memory.read s.out addr else none

/-- A host read of OUT (R46): the result's byte, or any value, drawn afresh (U4, U5; log 4). It never faults. -/
def State.readOut (s : State) (addr : Nat) : State :=
  match s.resultByte addr with
  | some b => { s with reply := .byte b }
  | none => { s with reply := .byte (Config.freeByte s.draws), draws := s.draws + 1 }

/-- Execute a word written to CMD (R27, 30_encoding R53): the command, or ERR_ILLCMD. -/
def runWord (w : Word) (s : State) : Outcome :=
  match decode w with
  | .ok i => exec i s
  | .error _ => raiseFault .illcmd w s

/-- A REG write (R27): CMD executes; a write anywhere else is ignored. -/
def writeReg (offset : BitVec 8) (w : Word) (s : State) : Outcome :=
  if offset = 0 then runWord w s else .next s

/-- Serve one access. -/
def serve (a : HostAccess) (s : State) : Outcome :=
  match a with
  | .regWrite offset w => if regAligned offset then writeReg offset w s else .refused (.misalignedRegAccess offset)
  | .regRead offset =>
      if regAligned offset then .next { s with reply := .word (s.regValue offset) }
      else .refused (.misalignedRegAccess offset)
  | .outRead addr => .next (s.readOut addr)
  | .reset => .next s.openSession

/-- The state in which the first pending access is served: the access is taken off, and nothing has been returned
for it yet. -/
def State.takeAccess (s : State) : State := { s with bus := s.bus.tail, reply := .none }

/-- One step: the first pending access, in the host's order (R41); with none pending HBP is idle and keeps all state
(60 R97). -/
def serveNext (s : State) : Outcome :=
  match s.bus with
  | [] => .next s
  | a :: _ => serve a s.takeAccess

/-- The host's next access is a write of `w` to CMD. -/
def State.pushCommand (s : State) (w : Word) : State := { s with bus := .regWrite 0 w :: s.bus }

end Sys2Proof.Machine
end

