-- ==== Sys2Proof/Machine/Step.lean ====
section
/-! DEFINITION. The step, and how an instruction comes to be the next one. -/

namespace Sys2Proof.Machine

open Sys2Proof

/-- One step: serve the host's next access (20_memory R41). -/
def step (s : State) : Host.Outcome State Fault Refusal := serveNext s

/-- The host's next access writes to CMD the word whose low `nbits` bits are `w`: HBP fetches nothing, the host hands
it each command (10_state R30; log 2). -/
def State.withFetchWord (s : State) (nbits w : Nat) : State :=
  s.pushCommand (BitVec.ofNat 32 (w % 2 ^ nbits))

end Sys2Proof.Machine
end

