-- ==== Sys2Proof/Safety.lean ====
section
/-! DEFINITION. The terms the claims use: the invariant of 10_state R33, a session's fold of commands, the document's
functions pack (41 R72), unpack (42 R78) and decode (R79), root paths (40 R65), and the phase table (70 R100). None of
them is read by the machine. -/

namespace Sys2Proof.Machine

open Sys2Proof

/-- Execute commands in order (20_memory R41), each in the state the one before it left. -/
def execAll : List Instr → State → Outcome
  | [], s => .next s
  | i :: rest, s =>
    match exec i s with
    | .next t => execAll rest t
    | .fault r => .fault r
    | .refused r => .refused r

/-- `OUT[0..ocnt) = bytes` (R16, R24). -/
def State.OutIs (s : State) (bytes : List Byte) : Prop :=
  s.ocnt.toNat = bytes.length ∧ ∀ k, k < bytes.length → Memory.read s.out k = bytes[k]?

/-- `pack(B)` (41 R72): the bytes and the padding count. -/
def pack (b : BitString) : List Byte × Nat :=
  let pad := (8 - b.length % 8) % 8
  let padded := b ++ List.replicate pad false
  ((List.range (padded.length / 8)).map fun k => byte8 ((padded.drop (8 * k)).take 8), pad)

/-- `unpack(bytes, p)` (42 R78): all the bits without the last `p`. R78 does not define it for p > 8m (no byte and p > 0):
the empty string there is the model's choice (log 18, DESIGN CHOICE), a value no statement uses. -/
def unpack (bytes : List Byte) (p : Nat) : BitString := (bytes.flatMap bits8).take (8 * bytes.length - p)

/-- `decode` (42 R79) on the bits, from node `c` of the tree that `n` and `node` hold: the symbols emitted and the
final node, or `none` when a bit has no corresponding child (which includes the empty tree). -/
def decodeFrom (n : Nat) (node : Nat → NodeRec) : BitString → Nat → Option (List Byte × Nat)
  | [], c => some ([], c)
  | b :: rest, c =>
    if n = 0 then none
    else
      match (node c).child b with
      | none => none
      | some d =>
        match (node d.toNat).leafValue with
        | some v => (decodeFrom n node rest 0).map fun r => (v :: r.1, r.2)
        | none => decodeFrom n node rest d.toNat

/-- `path(j) = p` (40 R65): the side labels met going from the root down to record `j` of the first `n`. -/
inductive RootPath (n : Nat) (node : Nat → NodeRec) : Nat → BitString → Prop where
  /-- `path(0)` is empty. -/
  | root : RootPath n node 0 []
  /-- A child's path is its parent's, then the side of the slot. -/
  | slot (i : Nat) (p : BitString) (side : Bool) (c : NodeIndex) :
      RootPath n node i p → i < n → (node i).child side = some c → RootPath n node c.toNat (p ++ [side])

/-- The codes of a symbol sequence, concatenated in order (30_encoding R56). That a symbol without a code adds
nothing is the model's choice (log 18, DESIGN CHOICE), which no statement uses. -/
def State.stream (s : State) (symbols : List Byte) : BitString :=
  symbols.flatMap fun v => ((s.codeAt v).map CodeEntry.bits).getD []

/-- The phases that accept a command (70 R100). -/
def acceptedIn : Instr → List Phase
  | .init => [.load, .ready, .enc, .dec, .doneE, .doneD, .fault]
  | .ldleaf _ => [.load]
  | .ldint _ _ _ _ => [.load]
  | .build => [.load]
  | .enc _ => [.ready, .enc]
  | .flush => [.ready, .enc]
  | .setpad _ => [.ready]
  | .decb _ => [.ready, .dec]
  | .decend => [.ready, .dec]

/-- The phase a command leads to when it succeeds (70 R100). -/
def successPhase : Instr → Phase
  | .init => .load
  | .ldleaf _ => .load
  | .ldint _ _ _ _ => .load
  | .build => .ready
  | .enc _ => .enc
  | .flush => .doneE
  | .setpad _ => .dec
  | .decb _ => .dec
  | .decend => .doneD

/-- The causes "→ F(x)" of 70 R100's table: how a command can fault in a phase that accepts it. -/
def faultCauses : Phase → Instr → List ErrCode
  | .load, .ldleaf _ => [.treefull]
  | .load, .ldint _ _ _ _ => [.treefull]
  | .load, .build => [.tree]
  | .ready, .enc _ => [.nocode, .ovf]
  | .enc, .enc _ => [.nocode, .ovf]
  | .enc, .flush => [.ovf]
  | .dec, .decb _ => [.traversal, .ovf]
  | .dec, .decend => [.pad, .traversal, .ovf, .trunc]
  | _, _ => []

/-- A record as LDINT accepts it: an absent child's index is 0 (10_state R22). -/
def NodeRec.fieldsOk : NodeRec → Bool
  | .leaf _ => true
  | .int hasL left hasR right => childFieldOk hasL left && childFieldOk hasR right

/-- The session elements right after reset or INIT (10_state R32), the seven readable registers among them. -/
def State.Fresh (s : State) : Prop :=
  s.phase = .load ∧ s.err = .none ∧ s.errinfo = 0 ∧ s.pad = 0 ∧ s.ocnt = 0 ∧ s.icnt = 0 ∧ s.nnodes = 0 ∧ s.acc = 0 ∧
    s.accn = 0 ∧ s.hold = 0 ∧ s.holdv = false ∧ s.cur = 0 ∧ (∀ v, s.codeValid v = false) ∧
    ∀ k, k < 64 → s.regValue (BitVec.ofNat 8 (4 * k)) = 0

/-- The invariant of 10_state R33, with what R15 to R20 add about the phases and the canonical form of the memories. -/
structure State.Inv (s : State) : Prop where
  /-- `err = 0` and `errinfo = 0` exactly when `phase` ≠ FAULT. -/
  errOnlyInFault : (s.err = .none ∧ s.errinfo = 0) ↔ s.phase ≠ .fault
  /-- `acc[7-accn:0] = 0`. -/
  accZeroFilled : ∀ k, k < 8 - s.accn.toNat → s.acc.getLsbD k = false
  /-- Nothing is pending outside ENC, or FAULT entered from it. -/
  packerIdle : s.phase ≠ .enc → s.phase ≠ .fault → s.acc = 0 ∧ s.accn = 0
  /-- Nothing is held or half walked outside DEC, or FAULT entered from it. -/
  decoderIdle : s.phase ≠ .dec → s.phase ≠ .fault → s.holdv = false ∧ s.cur = 0
  /-- Without a held byte `hold` is 0 and the walk is at the root (R20, R21). -/
  holdEmpty : s.holdv = false → s.hold = 0 ∧ s.cur = 0
  /-- A session, a faulted one too, has one direction (R24, 70 R100). -/
  oneDirection : (s.acc = 0 ∧ s.accn = 0) ∨ (s.holdv = false ∧ s.cur = 0)
  /-- `pad` is still INIT's before FLUSH or SETPAD wrote it (R15). -/
  padUnwritten : s.phase = .load ∨ s.phase = .ready ∨ s.phase = .enc → s.pad = 0
  /-- Nothing was encoded or decoded yet (R16, R17). -/
  countersFresh : s.phase = .load ∨ s.phase = .ready → s.ocnt = 0 ∧ s.icnt = 0
  /-- `ocnt` ≤ OUT_CAP (R16). -/
  ocntBounded : s.ocnt.toNat ≤ s.outCap.toNat
  /-- `nnodes` ≤ 511 (R18). -/
  nnodesBounded : s.nnodes.toNat ≤ Config.nodeCap
  /-- `cur` is 0 or the index of an internal node (R21). -/
  curInternal : s.cur = 0 ∨ (s.cur.toNat < s.nnodes.toNat ∧ (s.nodeAt s.cur.toNat).isLeaf = false)
  /-- After BUILD the tree is well-formed and CODE is its code table (40 R66, R67). -/
  treeBuilt : s.phase ≠ .load → s.phase ≠ .fault →
    treeWF s.nnodes.toNat s.nodeAt = true ∧ s.code = buildCodes s.nnodes.toNat s.nodeAt []
  /-- Before BUILD no code is valid (R23). -/
  noCodeInLoad : s.phase = .load → s.code = []
  /-- Every loaded record stands in NODE, in the form LDINT accepts (R22). -/
  recordsLoaded : ∀ i, i < s.nnodes.toNat → ∃ r, Memory.read s.node i = some r ∧ r.fieldsOk = true
  /-- Every byte of the session stands in OUT (R24). -/
  bytesWritten : ∀ a, a < s.ocnt.toNat → (Memory.read s.out a).isSome = true
  /-- NODE has 511 entries (R22). -/
  nodeInRange : ∀ k, k ∈ s.node.map Prod.fst → k < Config.nodeCap
  /-- OUT has OUT_CAP bytes (R24). -/
  outInRange : ∀ k, k ∈ s.out.map Prod.fst → k < s.outCap.toNat
  /-- The memories keep their canonical form. -/
  nodeCanonical : Memory.wf s.node
  codeCanonical : Memory.wf s.code
  outCanonical : Memory.wf s.out
  /-- OUT_CAP ≥ 1 (00_scope R6). -/
  outCapPositive : 1 ≤ s.outCap.toNat

/-- Two states that agree on everything but the contents the spec leaves unspecified: NODE at or above `nnodes` and OUT
at or above `ocnt` (10_state R22, R24). -/
def State.SameDefined (s t : State) : Prop :=
  { s with node := t.node, out := t.out } = t ∧
    (∀ i, i < s.nnodes.toNat → Memory.read s.node i = Memory.read t.node i) ∧
    ∀ a, a < s.ocnt.toNat → Memory.read s.out a = Memory.read t.out a

end Sys2Proof.Machine
end

