-- ==== Sys2Proof/Certificates/Slice0/Obligations.lean ====
section
/-! DEFINITION. The statements for the provers, from the numbered rules of spec/. A frame is written as a record: a
state with the named fields put back is the state before. -/

open Sys2Proof Sys2Proof.Machine

/-! ### Encoding (30_encoding) -/

/-- R47 to R53: the word of a command decodes to that command, every operand at every value. -/
def Obligations.DecodeOfEncode : Prop :=
  ∀ i : Instr, i.wf = true → decode (encode i) = .ok i

/-- R53 (D28): one word per command: a word that decodes is the word of the command it decodes to. -/
def Obligations.EncodeOfDecode : Prop :=
  ∀ (w : Word) (i : Instr), decode w = .ok i → i.wf = true ∧ encode i = w

/-- R48 to R51: a word is a command exactly when it meets the command's match, mask and "must be 0" conditions. -/
def Obligations.MatchAndMask : Prop :=
  ∀ w : Word,
    (decode w = .ok .init ↔ w &&& 0xFFFFFFFF = 0x01000000) ∧
    ((∃ v, decode w = .ok (.ldleaf v)) ↔ w &&& 0xFFFFFF00 = 0x02000000) ∧
    ((∃ hasL left hasR right, decode w = .ok (.ldint hasL left hasR right)) ↔
      w &&& 0xFFC00C00 = 0x03000000 ∧ (w.getLsbD 9 = true ∨ w.toNat % 512 = 0) ∧
        (w.getLsbD 21 = true ∨ w.toNat / 4096 % 512 = 0)) ∧
    (decode w = .ok .build ↔ w &&& 0xFFFFFFFF = 0x04000000) ∧
    ((∃ v, decode w = .ok (.enc v)) ↔ w &&& 0xFFFFFF00 = 0x05000000) ∧
    (decode w = .ok .flush ↔ w &&& 0xFFFFFFFF = 0x06000000) ∧
    ((∃ p, decode w = .ok (.setpad p)) ↔ w &&& 0xFFFFFFF8 = 0x07000000) ∧
    ((∃ v, decode w = .ok (.decb v)) ↔ w &&& 0xFFFFFF00 = 0x08000000) ∧
    (decode w = .ok .decend ↔ w &&& 0xFFFFFFFF = 0x09000000)

/-- R52: every operand is the unsigned number in the bits shown. -/
def Obligations.OperandFields : Prop :=
  ∀ w : Word,
    (∀ v, (decode w = .ok (.ldleaf v) ∨ decode w = .ok (.enc v) ∨ decode w = .ok (.decb v)) →
      v.toNat = w.toNat % 256) ∧
    (∀ p, decode w = .ok (.setpad p) → p.toNat = w.toNat % 8) ∧
    ∀ hasL left hasR right, decode w = .ok (.ldint hasL left hasR right) →
      hasL.toNat = w.toNat / 512 % 2 ∧ left.toNat = w.toNat % 512 ∧
      hasR.toNat = w.toNat / 2097152 % 2 ∧ right.toNat = w.toNat / 4096 % 512

/-- R53: all the words of 95_test_vectors, W1 to W26: what each decodes to, or why it is ILLEGAL. -/
def Obligations.SpecWordsDecode : Prop :=
  decode 0x01000000 = .ok .init ∧ decode 0x02000005 = .ok (.ldleaf 5) ∧
  decode 0x03204201 = .ok (.ldint true 1 true 4) ∧ decode 0x03000201 = .ok (.ldint true 1 false 0) ∧
  decode 0x03201000 = .ok (.ldint false 0 true 1) ∧ decode 0x03000000 = .ok (.ldint false 0 false 0) ∧
  decode 0x03000200 = .ok (.ldint true 0 false 0) ∧ decode 0x033FF3FF = .ok (.ldint true 511 true 511) ∧
  decode 0x04000000 = .ok .build ∧ decode 0x050000FF = .ok (.enc 255) ∧ decode 0x06000000 = .ok .flush ∧
  decode 0x07000003 = .ok (.setpad 3) ∧ decode 0x080000C6 = .ok (.decb 0xC6) ∧ decode 0x09000000 = .ok .decend ∧
  decode 0x01000001 = .error .reservedBits ∧ decode 0x02000100 = .error .reservedBits ∧
  decode 0x03400000 = .error .reservedBits ∧ decode 0x03000400 = .error .reservedBits ∧
  decode 0x04800000 = .error .reservedBits ∧ decode 0x07000008 = .error .reservedBits ∧
  decode 0x08000100 = .error .reservedBits ∧
  decode 0x03000001 = .error .absentChildIndex ∧ decode 0x03001000 = .error .absentChildIndex ∧
  decode 0x00000000 = .error .unassignedOpcode ∧ decode 0x0A000000 = .error .unassignedOpcode ∧
  decode 0xFFFFFFFF = .error .unassignedOpcode

/-- R9: `bits8` puts the most significant bit first and `byte8` is its inverse. -/
def Obligations.BytesAsBitStrings : Prop :=
  (∀ (b : Byte) (k : Nat), k < 8 → (bits8 b)[k]? = some (b.getLsbD (7 - k))) ∧
  (∀ b : Byte, (bits8 b).length = 8 ∧ byte8 (bits8 b) = b) ∧
  (∀ s : BitString, s.length = 8 → bits8 (byte8 s) = s) ∧
  bits8 0xC6 = [true, true, false, false, false, true, true, false] ∧
  byte8 [false, true, false, false, true, true, false, true] = 0x4D

/-! ### The step and the host's accesses (10_state R25 to R27, 20_memory R37 to R46, 70 R98)

What these say of `bus` and `reply`, the model's own fields, is the choice of logs 2 and 3. -/

/-- R35, R41: when the host's next access writes to CMD a word that decodes to `i`, the step is `exec i`, the access
taken off and nothing returned for it. -/
def Obligations.StepRunsTheDecodedCommand : Prop :=
  ∀ (s : State) (w : Word) (i : Instr) (rest : List HostAccess),
    s.bus = .regWrite 0 w :: rest → decode w = .ok i → step s = exec i { s with bus := rest, reply := .none }

/-- R53, R88, R91: a word that decodes to ILLEGAL raises ERR_ILLCMD in every phase but FAULT, and the fault records it. -/
def Obligations.IllegalWordFaults : Prop :=
  ∀ (s : State) (w : Word) (e : Illegal) (rest : List HostAccess),
    s.bus = .regWrite 0 w :: rest → decode w = .error e → s.phase ≠ .fault →
    step s = .next { s with bus := rest, reply := .none, phase := .fault, err := .illcmd, errinfo := w }

/-- R97: when no command is being executed HBP is idle and keeps all state. -/
def Obligations.IdleKeepsAllState : Prop :=
  ∀ s : State, s.bus = [] → step s = .next s

/-- R25 to R27: what a read of each aligned offset of REG returns, and that it changes nothing else. -/
def Obligations.RegisterReads : Prop :=
  ∀ (s : State) (off : BitVec 8) (rest : List HostAccess),
    s.bus = .regRead off :: rest → off.toNat % 4 = 0 →
    ∃ v : Word, step s = .next { s with bus := rest, reply := .word v } ∧
      (off.toNat = 0x04 → v.toNat = s.phase.code.toNat + 16 * s.accn.toNat + 128 * s.holdv.toNat) ∧
      (off.toNat = 0x08 → v.toNat = s.err.code.toNat) ∧
      (off.toNat = 0x0C → v = s.errinfo) ∧
      (off.toNat = 0x10 → v.toNat = s.pad.toNat) ∧
      (off.toNat = 0x14 → v = s.ocnt) ∧
      (off.toNat = 0x18 → v = s.icnt) ∧
      (off.toNat = 0x1C → v.toNat = s.nnodes.toNat) ∧
      (off.toNat = 0 ∨ 0x20 ≤ off.toNat → v = 0)

/-- R26: the layout of STATUS, and the rule's three examples. -/
def Obligations.StatusLayout : Prop :=
  (∀ s : State,
    s.status.extractLsb' 0 3 = s.phase.code ∧ s.status.getLsbD 3 = false ∧ s.status.extractLsb' 4 3 = s.accn ∧
    s.status.getLsbD 7 = s.holdv ∧ s.status.extractLsb' 8 24 = 0) ∧
  (∀ s : State, s.phase = .enc → s.accn = 3 → s.holdv = false → s.status = 0x00000032) ∧
  (∀ s : State, s.phase = .dec → s.accn = 0 → s.holdv = true → s.status = 0x00000083) ∧
  State.reset.status = 0x00000000

/-- R27: a write to a read-only register or a reserved offset is ignored. -/
def Obligations.OtherRegisterWritesIgnored : Prop :=
  ∀ (s : State) (off : BitVec 8) (w : Word) (rest : List HostAccess),
    s.bus = .regWrite off w :: rest → off.toNat % 4 = 0 → off ≠ 0 →
    step s = .next { s with bus := rest, reply := .none }

/-- R38: a misaligned REG access is refused, by name. -/
def Obligations.MisalignedAccessRefused : Prop :=
  ∀ (s : State) (off : BitVec 8) (rest : List HostAccess), off.toNat % 4 ≠ 0 →
    (∀ w, s.bus = .regWrite off w :: rest → step s = .refused (.misalignedRegAccess off)) ∧
    (s.bus = .regRead off :: rest → step s = .refused (.misalignedRegAccess off))

/-- R46: a host read of OUT returns the result's byte in the DONE phases below `ocnt`; it changes no state of the spec's
and never faults. That the byte the rule otherwise leaves to any value (U4) is `Config.freeByte` at the counter `draws`,
which then advances by one, is the model's choice (log 4, DESIGN CHOICE: a free value, of which nothing can be proved). -/
def Obligations.OutReads : Prop :=
  ∀ (s : State) (a : Nat) (rest : List HostAccess), s.bus = .outRead a :: rest →
    (∀ b, s.phase = .doneE ∨ s.phase = .doneD → a < s.ocnt.toNat → Memory.read s.out a = some b →
      step s = .next { s with bus := rest, reply := .byte b }) ∧
    (¬ ((s.phase = .doneE ∨ s.phase = .doneD) ∧ a < s.ocnt.toNat) →
      step s = .next { s with bus := rest, reply := .byte (Config.freeByte s.draws), draws := s.draws + 1 })

/-- R37: byte k of a REG word, on a byte-addressed platform, is its k-th least significant byte. -/
def Obligations.RegisterBytesLittleEndian : Prop :=
  ∀ (s : State) (off : BitVec 8) (k : Nat), off.toNat % 4 = 0 → k < 4 →
    (s.regByte (off + BitVec.ofNat 8 k)).toNat = (s.regValue off).toNat / 2 ^ (8 * k) % 256

/-- R32: the state after reset and after every INIT, the registers read as 0 among it. -/
def Obligations.ResetAndInitState : Prop :=
  State.reset.Fresh ∧ ∀ s : State, ∃ t, exec .init s = .next t ∧ t.Fresh

/-- R98: reset leaves the state that INIT leaves, whatever was going on. That it leaves the unspecified contents of NODE
and OUT as INIT leaves them is the model's choice (logs 5, 7 and 14). -/
def Obligations.ResetAccess : Prop :=
  ∀ (s : State) (rest : List HostAccess), s.bus = .reset :: rest →
    ∃ t, step s = .next t ∧ t.Fresh ∧ exec .init { s with bus := rest, reply := .none } = .next t

/-- The model's convention (log 1): the reset state holds an OUT_CAP in the range of R6. -/
def Obligations.ResetOutCapInRange : Prop :=
  1 ≤ State.reset.outCap.toNat ∧ State.reset.outCap.toNat ≤ 2 ^ 32 - 1

/-! ### INIT, LDLEAF, LDINT, BUILD (40_tree_and_codes) -/

/-- R61: INIT completes in every phase, gives the reset state, and after itself or after reset changes nothing. That NODE
and OUT then list what they listed before (`t.node = s.node`, `t.out = s.out`) is the model's choice (logs 5 and 7, DESIGN
CHOICE): R32 and R46 leave those contents unspecified. `outCap`, `bus`, `reply` and `draws` are the model's own fields
(logs 1 to 4). -/
def Obligations.InitOpensASession : Prop :=
  (∀ s : State, ∃ t, exec .init s = .next t ∧ t.Fresh ∧ t.node = s.node ∧ t.out = s.out ∧ t.outCap = s.outCap ∧
    t.bus = s.bus ∧ t.reply = s.reply ∧ t.draws = s.draws ∧ exec .init t = .next t) ∧
  exec .init State.reset = .next State.reset

/-- R62: in LOAD, below 511 records, LDLEAF appends a leaf record and changes nothing else. -/
def Obligations.LdleafAppends : Prop :=
  ∀ (s : State) (v : Byte), s.phase = .load → s.nnodes.toNat < 511 →
    ∃ t, exec (.ldleaf v) s = .next t ∧ t.nnodes.toNat = s.nnodes.toNat + 1 ∧
      (∀ i, Memory.read t.node i = if i = s.nnodes.toNat then some (.leaf v) else Memory.read s.node i) ∧
      t.nodeAt s.nnodes.toNat = .leaf v ∧ { t with node := s.node, nnodes := s.nnodes } = s

/-- R63: in LOAD, below 511 records, LDINT appends an internal record, its children unchecked. -/
def Obligations.LdintAppends : Prop :=
  ∀ (s : State) (hasL hasR : Bool) (left right : NodeIndex), s.phase = .load → s.nnodes.toNat < 511 →
    (hasL = false → left = 0) → (hasR = false → right = 0) →
    ∃ t, exec (.ldint hasL left hasR right) s = .next t ∧ t.nnodes.toNat = s.nnodes.toNat + 1 ∧
      (∀ i, Memory.read t.node i =
        if i = s.nnodes.toNat then some (.int hasL left hasR right) else Memory.read s.node i) ∧
      t.nodeAt s.nnodes.toNat = .int hasL left hasR right ∧ { t with node := s.node, nnodes := s.nnodes } = s

/-- R50, R53, R63, R90: an LDINT with a nonzero index for an absent child raises ERR_ILLCMD, whatever else holds (the model's
convention for a term no word decodes to, log 10), and is ignored in FAULT. -/
def Obligations.LdintAbsentChildIndex : Prop :=
  ∀ (s : State) (hasL hasR : Bool) (left right : NodeIndex),
    (hasL = false ∧ left ≠ 0) ∨ (hasR = false ∧ right ≠ 0) →
    (s.phase ≠ .fault → exec (.ldint hasL left hasR right) s =
      .next { s with phase := .fault, err := .illcmd, errinfo := encode (.ldint hasL left hasR right) }) ∧
    (s.phase = .fault → exec (.ldint hasL left hasR right) s = .next s)

/-- R18, R62, R63: a load with 511 records in NODE raises ERR_TREEFULL. -/
def Obligations.LoadIntoFullMemory : Prop :=
  ∀ s : State, s.phase = .load → s.nnodes.toNat = 511 →
    (∀ v, exec (.ldleaf v) s =
      .next { s with phase := .fault, err := .treefull, errinfo := encode (.ldleaf v) }) ∧
    ∀ hasL left hasR right, (Instr.ldint hasL left hasR right).wf = true →
      exec (.ldint hasL left hasR right) s =
        .next { s with phase := .fault, err := .treefull, errinfo := encode (.ldint hasL left hasR right) }

/-- R66: what the tree check computes is `WF`: the empty tree, or WF1 (order and range), WF2 (one parent slot each),
WF3 (shape) and WF4 (distinct leaves). -/
def Obligations.TreeCheckIsWF : Prop :=
  ∀ (n : Nat) (node : Nat → NodeRec),
    treeWF n node = true ↔ n = 0 ∨
      ((∀ i side c, i < n → (node i).child side = some c → i < c.toNat ∧ c.toNat < n) ∧
       (∀ j, 1 ≤ j → j < n →
          ∃! slot : Nat × Bool, slot.1 < n ∧ ∃ c, (node slot.1).child slot.2 = some c ∧ c.toNat = j) ∧
       ((∀ i, i < n → (node i).isLeaf = false →
            ((node i).child false).isSome = true ∧ ((node i).child true).isSome = true) ∨
        (n = 2 ∧ node 0 = .int true 1 false 0 ∧ (node 1).isLeaf = true)) ∧
       ∀ i j v, i < n → j < n → node i = .leaf v → node j = .leaf v → i = j)

/-- R68: in LOAD, on a well-formed tree, BUILD completes: READY, and only CODE changes beside. -/
def Obligations.BuildCompletes : Prop :=
  ∀ s : State, s.phase = .load → treeWF s.nnodes.toNat s.nodeAt = true →
    ∃ t, exec .build s = .next t ∧ t.phase = .ready ∧ { t with phase := s.phase, code := s.code } = s

/-- R68: in LOAD, on anything else, BUILD raises ERR_TREE and writes no code. -/
def Obligations.BuildRefusesOtherTrees : Prop :=
  ∀ s : State, s.phase = .load → treeWF s.nnodes.toNat s.nodeAt = false →
    exec .build s = .next { s with phase := .fault, err := .tree, errinfo := 0x04000000 }

/-- R65, R67, R68: every leaf of a well-formed tree has a path, BUILD gives its value the path as code ("0" for the
empty path), and the entries of other values keep what they had. -/
def Obligations.BuiltCodesArePaths : Prop :=
  ∀ s : State, s.phase = .load → treeWF s.nnodes.toNat s.nodeAt = true →
    ∃ t, exec .build s = .next t ∧
      (∀ j v p, j < s.nnodes.toNat → s.nodeAt j = .leaf v → RootPath s.nnodes.toNat s.nodeAt j p →
        t.codeAt v = some { bits := if p = [] then [false] else p }) ∧
      (∀ j, j < s.nnodes.toNat → ∃ p, RootPath s.nnodes.toNat s.nodeAt j p) ∧
      ∀ v, (∀ j, j < s.nnodes.toNat → s.nodeAt j ≠ .leaf v) → t.codeAt v = s.codeAt v

/-- R69: after an accepted BUILD every code is non-empty and none is the start of another. -/
def Obligations.BuiltCodesPrefixFree : Prop :=
  ∀ s t : State, s.Inv → exec .build s = .next t → t.phase = .ready →
    (∀ u e, t.codeAt u = some e → e.bits ≠ []) ∧
    ∀ u v e f, u ≠ v → t.codeAt u = some e → t.codeAt v = some f → ¬ e.bits <+: f.bits

/-- R70: after an accepted BUILD every code has 1 to 255 bits, so its length fits the field `len`. -/
def Obligations.BuiltCodesBounded : Prop :=
  ∀ s t : State, s.Inv → exec .build s = .next t → t.phase = .ready →
    ∀ v e, t.codeAt v = some e → 1 ≤ e.bits.length ∧ e.bits.length ≤ 255 ∧ e.len.toNat = e.bits.length

/-! ### ENC, FLUSH (41_encode_pack) -/

/-- R73, R76: ENC of a symbol with a code, when the whole bytes it completes fit, writes exactly those bytes at the
cursor, keeps the rest pending, and changes nothing else. -/
def Obligations.EncAppendsTheCode : Prop :=
  ∀ (s : State) (v : Byte) (e : CodeEntry), s.phase = .ready ∨ s.phase = .enc → s.codeAt v = some e →
    s.ocnt.toNat + (s.accn.toNat + e.bits.length) / 8 ≤ s.outCap.toNat →
    ∃ t, exec (.enc v) s = .next t ∧ t.phase = .enc ∧ t.icnt = s.icnt + 1 ∧
      t.ocnt.toNat = s.ocnt.toNat + (s.accn.toNat + e.bits.length) / 8 ∧
      t.accn.toNat = (s.accn.toNat + e.bits.length) % 8 ∧
      (∀ a, Memory.read t.out a =
        if s.ocnt.toNat ≤ a ∧ a < t.ocnt.toNat then
          some (byte8 (((s.pending ++ e.bits).drop (8 * (a - s.ocnt.toNat))).take 8))
        else Memory.read s.out a) ∧
      bits8 t.acc = (s.pending ++ e.bits).drop (8 * ((s.accn.toNat + e.bits.length) / 8)) ++
        List.replicate (8 - t.accn.toNat) false ∧
      { t with phase := s.phase, icnt := s.icnt, ocnt := s.ocnt, accn := s.accn, acc := s.acc, out := s.out } = s

/-- R73, R90: where ENC faults: ERR_NOCODE first, then ERR_OVF; nothing is written. -/
def Obligations.EncFaults : Prop :=
  ∀ (s : State) (v : Byte), s.phase = .ready ∨ s.phase = .enc →
    (s.codeAt v = none →
      exec (.enc v) s = .next { s with phase := .fault, err := .nocode, errinfo := encode (.enc v) }) ∧
    ∀ e, s.codeAt v = some e → s.outCap.toNat < s.ocnt.toNat + (s.accn.toNat + e.bits.length) / 8 →
      exec (.enc v) s = .next { s with phase := .fault, err := .ovf, errinfo := encode (.enc v) }

/-- R74: FLUSH writes the partial byte when bits are pending and there is room, records the padding count, ends the
session, and changes nothing else. -/
def Obligations.FlushPadsAndEnds : Prop :=
  ∀ s : State, s.phase = .ready ∨ s.phase = .enc → s.accn = 0 ∨ s.ocnt.toNat < s.outCap.toNat →
    ∃ t, exec .flush s = .next t ∧ t.phase = .doneE ∧ t.pad.toNat = (8 - s.accn.toNat) % 8 ∧
      t.ocnt.toNat = s.ocnt.toNat + (if s.accn = 0 then 0 else 1) ∧ t.acc = 0 ∧ t.accn = 0 ∧
      (∀ a, Memory.read t.out a =
        if s.accn ≠ 0 ∧ a = s.ocnt.toNat then some s.acc else Memory.read s.out a) ∧
      { t with phase := s.phase, pad := s.pad, ocnt := s.ocnt, acc := s.acc, accn := s.accn, out := s.out } = s

/-- R74: with bits pending and OUT full FLUSH raises ERR_OVF. -/
def Obligations.FlushOverflows : Prop :=
  ∀ s : State, s.phase = .ready ∨ s.phase = .enc → s.accn ≠ 0 → s.outCap.toNat ≤ s.ocnt.toNat →
    exec .flush s = .next { s with phase := .fault, err := .ovf, errinfo := 0x06000000 }

/-! ### SETPAD, DECB, DECEND (42_unpack_decode) -/

/-- R81: in READY SETPAD writes `pad` and enters DEC, and changes nothing else. -/
def Obligations.SetpadChoosesDecode : Prop :=
  ∀ (s : State) (p : BitVec 3), s.phase = .ready → exec (.setpad p) s = .next { s with pad := p, phase := .dec }

/-- R82: with no byte held DECB decodes nothing and holds the new byte. -/
def Obligations.DecbHoldsTheFirstByte : Prop :=
  ∀ (s : State) (v : Byte), s.phase = .ready ∨ s.phase = .dec → s.holdv = false →
    exec (.decb v) s = .next { s with hold := v, holdv := true, icnt := s.icnt + 1, phase := .dec }

/-- R80, R82: with a byte held whose 8 bits decode to symbols that fit, DECB writes those symbols at the cursor, moves
`cur`, holds the new byte, and changes nothing else. -/
def Obligations.DecbDecodesTheHeldByte : Prop :=
  ∀ (s : State) (v : Byte) (symbols : List Byte) (c : Nat), s.phase = .ready ∨ s.phase = .dec → s.holdv = true →
    decodeFrom s.nnodes.toNat s.nodeAt (bits8 s.hold) s.cur.toNat = some (symbols, c) →
    s.ocnt.toNat + symbols.length ≤ s.outCap.toNat →
    ∃ t, exec (.decb v) s = .next t ∧ t.phase = .dec ∧ t.hold = v ∧ t.icnt = s.icnt + 1 ∧ t.cur.toNat = c ∧
      t.ocnt.toNat = s.ocnt.toNat + symbols.length ∧
      (∀ a, Memory.read t.out a =
        if s.ocnt.toNat ≤ a ∧ a < t.ocnt.toNat then symbols[a - s.ocnt.toNat]? else Memory.read s.out a) ∧
      { t with phase := s.phase, hold := s.hold, icnt := s.icnt, cur := s.cur, ocnt := s.ocnt, out := s.out } = s

/-- R80, R82, R90: where DECB faults: the first fault in bit order. ERR_OVF when the symbols of some initial bits do
not fit; ERR_TRAVERSAL when they always fit but a bit has no child. Nothing is emitted and the new byte is not taken. -/
def Obligations.DecbFaults : Prop :=
  ∀ (s : State) (v : Byte), s.phase = .ready ∨ s.phase = .dec → s.holdv = true → s.ocnt.toNat ≤ s.outCap.toNat →
    (∀ k symbols c, decodeFrom s.nnodes.toNat s.nodeAt ((bits8 s.hold).take k) s.cur.toNat = some (symbols, c) →
      s.outCap.toNat < s.ocnt.toNat + symbols.length →
      exec (.decb v) s = .next { s with phase := .fault, err := .ovf, errinfo := encode (.decb v) }) ∧
    (decodeFrom s.nnodes.toNat s.nodeAt (bits8 s.hold) s.cur.toNat = none →
      (∀ k symbols c, decodeFrom s.nnodes.toNat s.nodeAt ((bits8 s.hold).take k) s.cur.toNat = some (symbols, c) →
        s.ocnt.toNat + symbols.length ≤ s.outCap.toNat) →
      exec (.decb v) s = .next { s with phase := .fault, err := .traversal, errinfo := encode (.decb v) })

/-- R83: with no byte held, no padding declared and the walk at the root DECEND ends the session. -/
def Obligations.DecendOfEmptyPayload : Prop :=
  ∀ s : State, s.phase = .ready ∨ s.phase = .dec → s.holdv = false → s.pad = 0 → s.cur = 0 →
    exec .decend s = .next { s with hold := 0, holdv := false, phase := .doneD }

/-- R80, R83: with a byte held whose first 8 - pad bits decode to symbols that fit and end at the root, DECEND writes
those symbols, ends the session, and changes nothing else; the dropped bits do not matter. -/
def Obligations.DecendDecodesTheLastByte : Prop :=
  ∀ (s : State) (symbols : List Byte), s.phase = .ready ∨ s.phase = .dec → s.holdv = true →
    decodeFrom s.nnodes.toNat s.nodeAt ((bits8 s.hold).take (8 - s.pad.toNat)) s.cur.toNat = some (symbols, 0) →
    s.ocnt.toNat + symbols.length ≤ s.outCap.toNat →
    ∃ t, exec .decend s = .next t ∧ t.phase = .doneD ∧ t.hold = 0 ∧ t.holdv = false ∧ t.cur = 0 ∧
      t.ocnt.toNat = s.ocnt.toNat + symbols.length ∧
      (∀ a, Memory.read t.out a =
        if s.ocnt.toNat ≤ a ∧ a < t.ocnt.toNat then symbols[a - s.ocnt.toNat]? else Memory.read s.out a) ∧
      { t with phase := s.phase, hold := s.hold, holdv := s.holdv, cur := s.cur, ocnt := s.ocnt, out := s.out } = s

/-- R83, R90: where DECEND faults: ERR_PAD when padding has no byte; the first fault of the walk in bit order; only
after a fault-free walk ERR_TRUNC. -/
def Obligations.DecendFaults : Prop :=
  ∀ s : State, s.phase = .ready ∨ s.phase = .dec → s.ocnt.toNat ≤ s.outCap.toNat →
    (s.holdv = false → s.pad ≠ 0 →
      exec .decend s = .next { s with phase := .fault, err := .pad, errinfo := 0x09000000 }) ∧
    (s.holdv = false → s.pad = 0 → s.cur ≠ 0 →
      exec .decend s = .next { s with phase := .fault, err := .trunc, errinfo := 0x09000000 }) ∧
    (s.holdv = true →
      (∀ k symbols c, k ≤ 8 - s.pad.toNat →
        decodeFrom s.nnodes.toNat s.nodeAt ((bits8 s.hold).take k) s.cur.toNat = some (symbols, c) →
        s.outCap.toNat < s.ocnt.toNat + symbols.length →
        exec .decend s = .next { s with phase := .fault, err := .ovf, errinfo := 0x09000000 }) ∧
      ((∀ k symbols c, k ≤ 8 - s.pad.toNat →
          decodeFrom s.nnodes.toNat s.nodeAt ((bits8 s.hold).take k) s.cur.toNat = some (symbols, c) →
          s.ocnt.toNat + symbols.length ≤ s.outCap.toNat) →
        (decodeFrom s.nnodes.toNat s.nodeAt ((bits8 s.hold).take (8 - s.pad.toNat)) s.cur.toNat = none →
          exec .decend s = .next { s with phase := .fault, err := .traversal, errinfo := 0x09000000 }) ∧
        ∀ symbols c,
          decodeFrom s.nnodes.toNat s.nodeAt ((bits8 s.hold).take (8 - s.pad.toNat)) s.cur.toNat = some (symbols, c) →
          c ≠ 0 →
          exec .decend s = .next { s with phase := .fault, err := .trunc, errinfo := 0x09000000 }))

/-- R80, R85: with a bare-leaf root the first payload bit faults, whatever it is. -/
def Obligations.BareLeafRootDoesNotDecode : Prop :=
  ∀ (s : State) (v : Byte), s.phase = .dec → s.holdv = true → s.cur = 0 → (s.nodeAt 0).isLeaf = true →
    exec (.decb v) s = .next { s with phase := .fault, err := .traversal, errinfo := encode (.decb v) } ∧
    exec .decend s = .next { s with phase := .fault, err := .traversal, errinfo := 0x09000000 }

/-! ### Faults and phases (60_exceptions, 70_reset_and_hazards) -/

/-- R88, R90: in a phase that does not accept it, a legal command other than INIT raises ERR_SEQ. -/
def Obligations.WrongPhaseFaults : Prop :=
  ∀ (i : Instr) (s : State), i.wf = true → s.phase ≠ .fault → s.phase ∉ acceptedIn i →
    exec i s = .next { s with phase := .fault, err := .seq, errinfo := encode i }

/-- R100: the phase table: every legal command in every phase, with the causes it can fault with there. -/
def Obligations.PhaseTable : Prop :=
  ∀ (s : State) (i : Instr), s.Inv → i.wf = true →
    ∃ t, exec i s = .next t ∧
      (i = .init → t.phase = .load) ∧
      (i ≠ .init → s.phase = .fault → t = s) ∧
      (s.phase ≠ .fault → s.phase ∉ acceptedIn i → t.phase = .fault ∧ t.err = .seq) ∧
      (s.phase ≠ .fault → s.phase ∈ acceptedIn i →
        (t.phase = successPhase i ∧ t.err = .none) ∨ (t.phase = .fault ∧ t.err ∈ faultCauses s.phase i))

/-- R91: a fault raised by a word outside FAULT changes exactly `phase`, `err` and `errinfo`, which records the word;
and no byte of OUT can then be read as a result. -/
def Obligations.FaultEntryIsPrecise : Prop :=
  ∀ (w : Word) (s t : State), s.phase ≠ .fault → runWord w s = .next t → t.phase = .fault →
    t.err ≠ .none ∧ t = { s with phase := .fault, err := t.err, errinfo := w } ∧ ∀ a, t.resultByte a = none

/-- R92: in FAULT every word but the exact INIT word is ignored, and register reads work as usual. -/
def Obligations.FaultIsSticky : Prop :=
  ∀ s : State, s.phase = .fault →
    (∀ w : Word, w ≠ 0x01000000 → runWord w s = .next s) ∧
    ∀ off : BitVec 8, regAligned off = true → serve (.regRead off) s = .next { s with reply := .word (s.regValue off) }

/-- R93: only INIT and reset leave FAULT, to an empty session in LOAD. -/
def Obligations.OnlyInitOrResetLeavesFault : Prop :=
  ∀ s t : State, s.phase = .fault → step s = .next t → t.phase ≠ .fault →
    (s.bus.head? = some (.regWrite 0 0x01000000) ∨ s.bus.head? = some .reset) ∧ t.Fresh

/-- R5: every word has one next state in every state; a step ends otherwise only for a misaligned access (R38). -/
def Obligations.EveryWordHasASuccessor : Prop :=
  (∀ (w : Word) (s : State), ∃ t, runWord w s = .next t) ∧
  ∀ s : State, (∃ t, step s = .next t) ∨
    ∃ off : BitVec 8, off.toNat % 4 ≠ 0 ∧ step s = .refused (.misalignedRegAccess off)

/-! ### Invariants and whole-machine rules -/

/-- R33: the invariant holds at reset. -/
def Obligations.InvAtReset : Prop := State.reset.Inv

/-- R33: every step keeps the invariant. -/
def Obligations.StepKeepsInv : Prop :=
  ∀ s t : State, s.Inv → step s = .next t → t.Inv

/-- Every step keeps the canonical form of the three memories, in states no run reaches too. -/
def Obligations.StepKeepsMemoriesCanonical : Prop :=
  ∀ s t : State, Memory.wf s.node → Memory.wf s.code → Memory.wf s.out → step s = .next t →
    Memory.wf t.node ∧ Memory.wf t.code ∧ Memory.wf t.out

/-- R12, R14 to R24: each state element is changed only by what its row names: `err` and `errinfo` by INIT and by entry to
FAULT, the others by the commands of the row (`phase`, whose row is every command, has no clause). No command touches
the model's own fields. -/
def Obligations.OnlyTheNamedWriters : Prop :=
  ∀ (i : Instr) (s t : State), exec i s = .next t →
    (t.err ≠ s.err ∨ t.errinfo ≠ s.errinfo → i = .init ∨ (s.phase ≠ .fault ∧ t.phase = .fault)) ∧
    (t.pad ≠ s.pad → i = .init ∨ i = .flush ∨ ∃ p, i = .setpad p) ∧
    (t.ocnt ≠ s.ocnt → i = .init ∨ i = .flush ∨ i = .decend ∨ (∃ v, i = .enc v) ∨ ∃ v, i = .decb v) ∧
    (t.icnt ≠ s.icnt → i = .init ∨ (∃ v, i = .enc v) ∨ ∃ v, i = .decb v) ∧
    (t.nnodes ≠ s.nnodes → i = .init ∨ (∃ v, i = .ldleaf v) ∨ ∃ a b c d, i = .ldint a b c d) ∧
    (t.acc ≠ s.acc ∨ t.accn ≠ s.accn → i = .init ∨ i = .flush ∨ ∃ v, i = .enc v) ∧
    (t.hold ≠ s.hold ∨ t.holdv ≠ s.holdv ∨ t.cur ≠ s.cur → i = .init ∨ i = .decend ∨ ∃ v, i = .decb v) ∧
    (t.node ≠ s.node → (∃ v, i = .ldleaf v) ∨ ∃ a b c d, i = .ldint a b c d) ∧
    (t.code ≠ s.code → i = .init ∨ i = .build) ∧
    (t.out ≠ s.out → i = .flush ∨ i = .decend ∨ (∃ v, i = .enc v) ∨ ∃ v, i = .decb v) ∧
    t.outCap = s.outCap ∧ t.bus = s.bus ∧ t.reply = s.reply ∧ t.draws = s.draws

/-- R16, R24, R36: OUT is written only at the cursor, upwards, below OUT_CAP, and no byte of the session is rewritten.
That a step that opens a session (INIT or reset) leaves OUT as it was (`t.out = s.out`) is the model's choice (log 7,
DESIGN CHOICE, and log 14): R32, R46 and R98 leave OUT unspecified there. -/
def Obligations.OutIsAppendOnly : Prop :=
  ∀ s t : State, s.ocnt.toNat ≤ s.outCap.toNat → step s = .next t →
    t.ocnt.toNat ≤ t.outCap.toNat ∧ t.outCap = s.outCap ∧
    ((t.Fresh ∧ t.out = s.out) ∨
      (s.ocnt.toNat ≤ t.ocnt.toNat ∧
        ∀ a, a < s.ocnt.toNat ∨ t.ocnt.toNat ≤ a → Memory.read t.out a = Memory.read s.out a))

/-- R43: outside LOAD no step changes NODE, and none but the start of a session changes `nnodes` or CODE. That a step that
opens a session (INIT or reset) leaves NODE as it was is the model's choice (log 5, DESIGN CHOICE, and log 14): R32 and
R98 leave NODE unspecified there. -/
def Obligations.TreeFixedAfterBuild : Prop :=
  ∀ s t : State, s.phase ≠ .load → step s = .next t →
    t.node = s.node ∧ (t.Fresh ∨ (t.nnodes = s.nnodes ∧ t.code = s.code))

/-- R22, R24, R86: what a step does, and what it lets the host read, does not depend on the contents the spec leaves
unspecified: NODE at or above `nnodes`, OUT at or above `ocnt`. That an unspecified read of OUT (U4) replies the same free
byte in both states is the model's choice (log 4: both have drawn equally often). -/
def Obligations.UnspecifiedContentsDoNotFlow : Prop :=
  ∀ s t : State, s.SameDefined t →
    (∀ s', step s = .next s' → ∃ t', step t = .next t' ∧ s'.SameDefined t') ∧
    ∀ r, step s = .refused r → step t = .refused r

/-! ### What a session computes (41 R75, R77, 42 R78, R84, R85) -/

/-- R78, R72: unpacking what was packed gives the bits back, for every length; the padding is 0 to 7 and fills the
last byte. -/
def Obligations.UnpackOfPack : Prop :=
  ∀ b : BitString, unpack (pack b).1 (pack b).2 = b ∧ (pack b).2 < 8 ∧
    8 * (pack b).1.length = b.length + (pack b).2

/-- R75: from READY, encoding any symbols that have codes gives the concatenation of their codes in OUT and the
pending bits after every ENC, and after FLUSH the packed stream, its length and its padding count. -/
def Obligations.EncodeSessionPacks : Prop :=
  ∀ (s : State) (symbols : List Byte), s.Inv → s.phase = .ready →
    (∀ v, v ∈ symbols → s.codeValid v = true) → ((s.stream symbols).length + 7) / 8 ≤ s.outCap.toNat →
    (∃ t bytes, execAll (symbols.map .enc) s = .next t ∧ t.OutIs bytes ∧
      bytes.flatMap bits8 ++ t.pending = s.stream symbols ∧
      8 * t.ocnt.toNat + t.accn.toNat = (s.stream symbols).length) ∧
    ∃ t, execAll (symbols.map .enc ++ [.flush]) s = .next t ∧ t.phase = .doneE ∧
      t.OutIs (pack (s.stream symbols)).1 ∧ t.pad.toNat = (pack (s.stream symbols)).2 ∧
      t.ocnt.toNat = ((s.stream symbols).length + 7) / 8 ∧ t.icnt = BitVec.ofNat 32 symbols.length

/-- R84: from READY, giving a padding count or none (then it is 0) and any payload bytes ends as unpacking and decoding
the whole payload says. -/
def Obligations.DecodeSessionDecodes : Prop :=
  ∀ (s : State) (setpad : Option (BitVec 3)) (bytes : List Byte), s.Inv → s.phase = .ready →
    ∃ t, execAll (setpad.toList.map .setpad ++ bytes.map .decb ++ [.decend]) s = .next t ∧
      (bytes = [] → setpad.getD 0 ≠ 0 → t.phase = .fault ∧ t.err = .pad) ∧
      (bytes ≠ [] ∨ setpad.getD 0 = 0 →
        let bits := unpack bytes (setpad.getD 0).toNat
        (∀ k symbols c, decodeFrom s.nnodes.toNat s.nodeAt (bits.take k) 0 = some (symbols, c) →
          s.outCap.toNat < symbols.length → t.phase = .fault ∧ t.err = .ovf) ∧
        ((∀ k symbols c, decodeFrom s.nnodes.toNat s.nodeAt (bits.take k) 0 = some (symbols, c) →
            symbols.length ≤ s.outCap.toNat) →
          (decodeFrom s.nnodes.toNat s.nodeAt bits 0 = none → t.phase = .fault ∧ t.err = .traversal) ∧
          ∀ symbols c, decodeFrom s.nnodes.toNat s.nodeAt bits 0 = some (symbols, c) →
            (c ≠ 0 → t.phase = .fault ∧ t.err = .trunc) ∧
            (c = 0 → t.phase = .doneD ∧ t.OutIs symbols ∧ t.icnt = BitVec.ofNat 32 bytes.length)))

/-- R85: what an encode session packs, a decode session with the same tree gives back, for every tree but a bare-leaf
root (and for that one when there is no symbol). -/
def Obligations.RoundTrip : Prop :=
  ∀ (s d : State) (symbols : List Byte), s.Inv → d.Inv → s.phase = .ready → d.phase = .ready →
    d.nnodes = s.nnodes → (∀ i, i < s.nnodes.toNat → d.nodeAt i = s.nodeAt i) →
    (∀ v, v ∈ symbols → s.codeValid v = true) → symbols = [] ∨ (s.nodeAt 0).isLeaf = false →
    ((s.stream symbols).length + 7) / 8 ≤ s.outCap.toNat → symbols.length ≤ d.outCap.toNat →
    ∃ e bytes t, execAll (symbols.map .enc ++ [.flush]) s = .next e ∧ e.OutIs bytes ∧
      execAll (.setpad e.pad :: bytes.map .decb ++ [.decend]) d = .next t ∧ t.phase = .doneD ∧ t.OutIs symbols

/-- R77: the empty session, both directions: BUILD and FLUSH, or BUILD and DECEND, right after a session starts. -/
def Obligations.EmptyInput : Prop :=
  ∀ s : State,
    (∃ t, execAll [.init, .build, .flush] s = .next t ∧ t.phase = .doneE ∧ t.ocnt = 0 ∧ t.pad = 0 ∧ t.icnt = 0 ∧
      t.nnodes = 0) ∧
    ∃ t, execAll [.init, .build, .decend] s = .next t ∧ t.phase = .doneD ∧ t.ocnt = 0
end

