-- ==== Sys2Proof/Laws/Memory.lean ====
section
/-! SUPPORT. The memory laws: a read after a write, and that a write keeps the canonical form. -/

namespace Sys2Proof.Machine

variable {α : Type}

@[simp] theorem Memory.read_nil (a : Nat) : Memory.read ([] : Memory α) a = none := rfl

/-- A read after a write: the value written there, and what stood everywhere else. It needs no canonical form. -/
theorem Memory.read_write (m : Memory α) (a b : Nat) (x : α) :
    Memory.read (Memory.write m a x) b = if b = a then some x else Memory.read m b := by
  induction m with
  | nil => simp [Memory.write, Memory.read, eq_comm]
  | cons e m ih =>
    obtain ⟨k, v⟩ := e
    by_cases hb : b = a
    · subst hb
      simp only [if_true] at ih ⊢
      unfold Memory.write
      split_ifs with h1 h2
      · simp [Memory.read]
      · simp [Memory.read]
      · simp [Memory.read, Ne.symm h2, ih]
    · have hab : a ≠ b := fun h => hb h.symm
      simp only [hb, if_false] at ih ⊢
      unfold Memory.write
      split_ifs with h1 h2
      · simp [Memory.read, hab]
      · subst h2; simp [Memory.read, hab]
      · simp [Memory.read, ih]

@[simp] theorem Memory.read_write_self (m : Memory α) (a : Nat) (x : α) :
    Memory.read (Memory.write m a x) a = some x := by simp [Memory.read_write]

theorem Memory.read_write_of_ne (m : Memory α) {a b : Nat} (x : α) (h : b ≠ a) :
    Memory.read (Memory.write m a x) b = Memory.read m b := by simp [Memory.read_write, h]

/-- The addresses listed after a write: those before, and the one written. -/
theorem Memory.mem_keys_write (m : Memory α) (a k : Nat) (x : α) :
    k ∈ (Memory.write m a x).map Prod.fst ↔ k = a ∨ k ∈ m.map Prod.fst := by
  induction m with
  | nil => simp [Memory.write]
  | cons e m ih =>
    obtain ⟨j, v⟩ := e
    unfold Memory.write
    split
    · simp
    · split
      · rename_i h; subst h; simp
      · rw [List.map_cons, List.mem_cons, ih, List.map_cons, List.mem_cons]; tauto

/-- A write keeps the canonical form. -/
theorem Memory.wf_write (m : Memory α) (a : Nat) (x : α) (h : Memory.wf m) : Memory.wf (Memory.write m a x) := by
  induction m with
  | nil => simp [Memory.write, Memory.wf]
  | cons e m ih =>
    obtain ⟨k, v⟩ := e
    have hk : ∀ j ∈ m.map Prod.fst, k < j := (List.pairwise_cons.mp h).1
    have hm : Memory.wf m := (List.pairwise_cons.mp h).2
    unfold Memory.write
    split
    · rename_i ha
      refine List.pairwise_cons.mpr ⟨fun j hj => ?_, h⟩
      rcases List.mem_cons.mp hj with rfl | hj
      · exact ha
      · exact lt_trans ha (hk j hj)
    · split
      · rename_i ha; subst ha; exact h
      · rename_i h1 h2
        refine List.pairwise_cons.mpr ⟨fun j hj => ?_, ih hm⟩
        rcases (Memory.mem_keys_write m a j x).mp hj with rfl | hj
        · simp only at h1 h2 ⊢; omega
        · exact hk j hj

/-- The memories right after reset have the canonical form. -/
theorem reset_memories_wf :
    Memory.wf State.reset.node ∧ Memory.wf State.reset.code ∧ Memory.wf State.reset.out := by
  decide

end Sys2Proof.Machine
end

