-- ==== Sys2Proof/Laws/State.lean ====
section
/-! SUPPORT. What each named update of State does to each field, so that no proof unfolds a record update. -/

namespace Sys2Proof.Machine

open Sys2Proof

/-! putOut appends one byte to OUT (20_memory R36). -/

@[simp] theorem State.putOut_phase (s : State) (b : Byte) : (s.putOut b).phase = s.phase := rfl
@[simp] theorem State.putOut_err (s : State) (b : Byte) : (s.putOut b).err = s.err := rfl
@[simp] theorem State.putOut_errinfo (s : State) (b : Byte) : (s.putOut b).errinfo = s.errinfo := rfl
@[simp] theorem State.putOut_pad (s : State) (b : Byte) : (s.putOut b).pad = s.pad := rfl
@[simp] theorem State.putOut_ocnt (s : State) (b : Byte) : (s.putOut b).ocnt = s.ocnt + 1 := rfl
@[simp] theorem State.putOut_icnt (s : State) (b : Byte) : (s.putOut b).icnt = s.icnt := rfl
@[simp] theorem State.putOut_nnodes (s : State) (b : Byte) : (s.putOut b).nnodes = s.nnodes := rfl
@[simp] theorem State.putOut_acc (s : State) (b : Byte) : (s.putOut b).acc = s.acc := rfl
@[simp] theorem State.putOut_accn (s : State) (b : Byte) : (s.putOut b).accn = s.accn := rfl
@[simp] theorem State.putOut_hold (s : State) (b : Byte) : (s.putOut b).hold = s.hold := rfl
@[simp] theorem State.putOut_holdv (s : State) (b : Byte) : (s.putOut b).holdv = s.holdv := rfl
@[simp] theorem State.putOut_cur (s : State) (b : Byte) : (s.putOut b).cur = s.cur := rfl
@[simp] theorem State.putOut_node (s : State) (b : Byte) : (s.putOut b).node = s.node := rfl
@[simp] theorem State.putOut_code (s : State) (b : Byte) : (s.putOut b).code = s.code := rfl
@[simp] theorem State.putOut_out (s : State) (b : Byte) : (s.putOut b).out = Memory.write s.out s.ocnt.toNat b := rfl
@[simp] theorem State.putOut_outCap (s : State) (b : Byte) : (s.putOut b).outCap = s.outCap := rfl
@[simp] theorem State.putOut_bus (s : State) (b : Byte) : (s.putOut b).bus = s.bus := rfl
@[simp] theorem State.putOut_reply (s : State) (b : Byte) : (s.putOut b).reply = s.reply := rfl
@[simp] theorem State.putOut_draws (s : State) (b : Byte) : (s.putOut b).draws = s.draws := rfl

/-! pushNode appends one record to NODE (40 R62, R63). -/

@[simp] theorem State.pushNode_phase (s : State) (r : NodeRec) : (s.pushNode r).phase = s.phase := rfl
@[simp] theorem State.pushNode_err (s : State) (r : NodeRec) : (s.pushNode r).err = s.err := rfl
@[simp] theorem State.pushNode_errinfo (s : State) (r : NodeRec) : (s.pushNode r).errinfo = s.errinfo := rfl
@[simp] theorem State.pushNode_pad (s : State) (r : NodeRec) : (s.pushNode r).pad = s.pad := rfl
@[simp] theorem State.pushNode_ocnt (s : State) (r : NodeRec) : (s.pushNode r).ocnt = s.ocnt := rfl
@[simp] theorem State.pushNode_icnt (s : State) (r : NodeRec) : (s.pushNode r).icnt = s.icnt := rfl
@[simp] theorem State.pushNode_nnodes (s : State) (r : NodeRec) : (s.pushNode r).nnodes = s.nnodes + 1 := rfl
@[simp] theorem State.pushNode_acc (s : State) (r : NodeRec) : (s.pushNode r).acc = s.acc := rfl
@[simp] theorem State.pushNode_accn (s : State) (r : NodeRec) : (s.pushNode r).accn = s.accn := rfl
@[simp] theorem State.pushNode_hold (s : State) (r : NodeRec) : (s.pushNode r).hold = s.hold := rfl
@[simp] theorem State.pushNode_holdv (s : State) (r : NodeRec) : (s.pushNode r).holdv = s.holdv := rfl
@[simp] theorem State.pushNode_cur (s : State) (r : NodeRec) : (s.pushNode r).cur = s.cur := rfl
@[simp] theorem State.pushNode_node (s : State) (r : NodeRec) : (s.pushNode r).node = Memory.write s.node s.nnodes.toNat r := rfl
@[simp] theorem State.pushNode_code (s : State) (r : NodeRec) : (s.pushNode r).code = s.code := rfl
@[simp] theorem State.pushNode_out (s : State) (r : NodeRec) : (s.pushNode r).out = s.out := rfl
@[simp] theorem State.pushNode_outCap (s : State) (r : NodeRec) : (s.pushNode r).outCap = s.outCap := rfl
@[simp] theorem State.pushNode_bus (s : State) (r : NodeRec) : (s.pushNode r).bus = s.bus := rfl
@[simp] theorem State.pushNode_reply (s : State) (r : NodeRec) : (s.pushNode r).reply = s.reply := rfl
@[simp] theorem State.pushNode_draws (s : State) (r : NodeRec) : (s.pushNode r).draws = s.draws := rfl

/-! enterFault changes three fields (60 R91). -/

@[simp] theorem State.enterFault_phase (s : State) (c : ErrCode) (w : Word) : (s.enterFault c w).phase = .fault := rfl
@[simp] theorem State.enterFault_err (s : State) (c : ErrCode) (w : Word) : (s.enterFault c w).err = c := rfl
@[simp] theorem State.enterFault_errinfo (s : State) (c : ErrCode) (w : Word) : (s.enterFault c w).errinfo = w := rfl
@[simp] theorem State.enterFault_pad (s : State) (c : ErrCode) (w : Word) : (s.enterFault c w).pad = s.pad := rfl
@[simp] theorem State.enterFault_ocnt (s : State) (c : ErrCode) (w : Word) : (s.enterFault c w).ocnt = s.ocnt := rfl
@[simp] theorem State.enterFault_icnt (s : State) (c : ErrCode) (w : Word) : (s.enterFault c w).icnt = s.icnt := rfl
@[simp] theorem State.enterFault_nnodes (s : State) (c : ErrCode) (w : Word) : (s.enterFault c w).nnodes = s.nnodes := rfl
@[simp] theorem State.enterFault_acc (s : State) (c : ErrCode) (w : Word) : (s.enterFault c w).acc = s.acc := rfl
@[simp] theorem State.enterFault_accn (s : State) (c : ErrCode) (w : Word) : (s.enterFault c w).accn = s.accn := rfl
@[simp] theorem State.enterFault_hold (s : State) (c : ErrCode) (w : Word) : (s.enterFault c w).hold = s.hold := rfl
@[simp] theorem State.enterFault_holdv (s : State) (c : ErrCode) (w : Word) : (s.enterFault c w).holdv = s.holdv := rfl
@[simp] theorem State.enterFault_cur (s : State) (c : ErrCode) (w : Word) : (s.enterFault c w).cur = s.cur := rfl
@[simp] theorem State.enterFault_node (s : State) (c : ErrCode) (w : Word) : (s.enterFault c w).node = s.node := rfl
@[simp] theorem State.enterFault_code (s : State) (c : ErrCode) (w : Word) : (s.enterFault c w).code = s.code := rfl
@[simp] theorem State.enterFault_out (s : State) (c : ErrCode) (w : Word) : (s.enterFault c w).out = s.out := rfl
@[simp] theorem State.enterFault_outCap (s : State) (c : ErrCode) (w : Word) : (s.enterFault c w).outCap = s.outCap := rfl
@[simp] theorem State.enterFault_bus (s : State) (c : ErrCode) (w : Word) : (s.enterFault c w).bus = s.bus := rfl
@[simp] theorem State.enterFault_reply (s : State) (c : ErrCode) (w : Word) : (s.enterFault c w).reply = s.reply := rfl
@[simp] theorem State.enterFault_draws (s : State) (c : ErrCode) (w : Word) : (s.enterFault c w).draws = s.draws := rfl

/-! openSession resets the session (10_state R32). -/

@[simp] theorem State.openSession_phase (s : State) : s.openSession.phase = .load := rfl
@[simp] theorem State.openSession_err (s : State) : s.openSession.err = .none := rfl
@[simp] theorem State.openSession_errinfo (s : State) : s.openSession.errinfo = 0 := rfl
@[simp] theorem State.openSession_pad (s : State) : s.openSession.pad = 0 := rfl
@[simp] theorem State.openSession_ocnt (s : State) : s.openSession.ocnt = 0 := rfl
@[simp] theorem State.openSession_icnt (s : State) : s.openSession.icnt = 0 := rfl
@[simp] theorem State.openSession_nnodes (s : State) : s.openSession.nnodes = 0 := rfl
@[simp] theorem State.openSession_acc (s : State) : s.openSession.acc = 0 := rfl
@[simp] theorem State.openSession_accn (s : State) : s.openSession.accn = 0 := rfl
@[simp] theorem State.openSession_hold (s : State) : s.openSession.hold = 0 := rfl
@[simp] theorem State.openSession_holdv (s : State) : s.openSession.holdv = false := rfl
@[simp] theorem State.openSession_cur (s : State) : s.openSession.cur = 0 := rfl
@[simp] theorem State.openSession_node (s : State) : s.openSession.node = s.node := rfl
@[simp] theorem State.openSession_code (s : State) : s.openSession.code = [] := rfl
@[simp] theorem State.openSession_out (s : State) : s.openSession.out = s.out := rfl
@[simp] theorem State.openSession_outCap (s : State) : s.openSession.outCap = s.outCap := rfl
@[simp] theorem State.openSession_bus (s : State) : s.openSession.bus = s.bus := rfl
@[simp] theorem State.openSession_reply (s : State) : s.openSession.reply = s.reply := rfl
@[simp] theorem State.openSession_draws (s : State) : s.openSession.draws = s.draws := rfl

/-! takeAccess takes the first pending access off. -/

@[simp] theorem State.takeAccess_phase (s : State) : s.takeAccess.phase = s.phase := rfl
@[simp] theorem State.takeAccess_err (s : State) : s.takeAccess.err = s.err := rfl
@[simp] theorem State.takeAccess_errinfo (s : State) : s.takeAccess.errinfo = s.errinfo := rfl
@[simp] theorem State.takeAccess_pad (s : State) : s.takeAccess.pad = s.pad := rfl
@[simp] theorem State.takeAccess_ocnt (s : State) : s.takeAccess.ocnt = s.ocnt := rfl
@[simp] theorem State.takeAccess_icnt (s : State) : s.takeAccess.icnt = s.icnt := rfl
@[simp] theorem State.takeAccess_nnodes (s : State) : s.takeAccess.nnodes = s.nnodes := rfl
@[simp] theorem State.takeAccess_acc (s : State) : s.takeAccess.acc = s.acc := rfl
@[simp] theorem State.takeAccess_accn (s : State) : s.takeAccess.accn = s.accn := rfl
@[simp] theorem State.takeAccess_hold (s : State) : s.takeAccess.hold = s.hold := rfl
@[simp] theorem State.takeAccess_holdv (s : State) : s.takeAccess.holdv = s.holdv := rfl
@[simp] theorem State.takeAccess_cur (s : State) : s.takeAccess.cur = s.cur := rfl
@[simp] theorem State.takeAccess_node (s : State) : s.takeAccess.node = s.node := rfl
@[simp] theorem State.takeAccess_code (s : State) : s.takeAccess.code = s.code := rfl
@[simp] theorem State.takeAccess_out (s : State) : s.takeAccess.out = s.out := rfl
@[simp] theorem State.takeAccess_outCap (s : State) : s.takeAccess.outCap = s.outCap := rfl
@[simp] theorem State.takeAccess_bus (s : State) : s.takeAccess.bus = s.bus.tail := rfl
@[simp] theorem State.takeAccess_reply (s : State) : s.takeAccess.reply = .none := rfl
@[simp] theorem State.takeAccess_draws (s : State) : s.takeAccess.draws = s.draws := rfl

/-! pushCommand puts a write to CMD first. -/

@[simp] theorem State.pushCommand_phase (s : State) (w : Word) : (s.pushCommand w).phase = s.phase := rfl
@[simp] theorem State.pushCommand_err (s : State) (w : Word) : (s.pushCommand w).err = s.err := rfl
@[simp] theorem State.pushCommand_errinfo (s : State) (w : Word) : (s.pushCommand w).errinfo = s.errinfo := rfl
@[simp] theorem State.pushCommand_pad (s : State) (w : Word) : (s.pushCommand w).pad = s.pad := rfl
@[simp] theorem State.pushCommand_ocnt (s : State) (w : Word) : (s.pushCommand w).ocnt = s.ocnt := rfl
@[simp] theorem State.pushCommand_icnt (s : State) (w : Word) : (s.pushCommand w).icnt = s.icnt := rfl
@[simp] theorem State.pushCommand_nnodes (s : State) (w : Word) : (s.pushCommand w).nnodes = s.nnodes := rfl
@[simp] theorem State.pushCommand_acc (s : State) (w : Word) : (s.pushCommand w).acc = s.acc := rfl
@[simp] theorem State.pushCommand_accn (s : State) (w : Word) : (s.pushCommand w).accn = s.accn := rfl
@[simp] theorem State.pushCommand_hold (s : State) (w : Word) : (s.pushCommand w).hold = s.hold := rfl
@[simp] theorem State.pushCommand_holdv (s : State) (w : Word) : (s.pushCommand w).holdv = s.holdv := rfl
@[simp] theorem State.pushCommand_cur (s : State) (w : Word) : (s.pushCommand w).cur = s.cur := rfl
@[simp] theorem State.pushCommand_node (s : State) (w : Word) : (s.pushCommand w).node = s.node := rfl
@[simp] theorem State.pushCommand_code (s : State) (w : Word) : (s.pushCommand w).code = s.code := rfl
@[simp] theorem State.pushCommand_out (s : State) (w : Word) : (s.pushCommand w).out = s.out := rfl
@[simp] theorem State.pushCommand_outCap (s : State) (w : Word) : (s.pushCommand w).outCap = s.outCap := rfl
@[simp] theorem State.pushCommand_bus (s : State) (w : Word) : (s.pushCommand w).bus = .regWrite 0 w :: s.bus := rfl
@[simp] theorem State.pushCommand_reply (s : State) (w : Word) : (s.pushCommand w).reply = s.reply := rfl
@[simp] theorem State.pushCommand_draws (s : State) (w : Word) : (s.pushCommand w).draws = s.draws := rfl

end Sys2Proof.Machine
end

