-- ==== Sys2Proof/Laws/Ops.lean ====
section
/-! SUPPORT. For each shared operation, what it can do: fault entry and the command frame, appending to OUT, loading a
record, the walk. Later proofs cite these and do not unfold the operation. -/

namespace Sys2Proof.Machine

open Sys2Proof

/-! ### Fault entry and the command frame (60 R90 to R92) -/

theorem raiseFault_of_ne {s : State} (h : s.phase ≠ .fault) (c : ErrCode) (w : Word) :
    raiseFault c w s = .next (s.enterFault c w) := if_neg h

theorem raiseFault_in_fault {s : State} (h : s.phase = .fault) (c : ErrCode) (w : Word) :
    raiseFault c w s = .next s := if_pos h

theorem runCommand_in_fault {s : State} (h : s.phase = .fault) (w : Word) (acc : List Phase)
    (body : State → Except ErrCode State) : runCommand w acc body s = .next s := if_pos h

theorem runCommand_wrong_phase {s : State} {acc : List Phase} (h : s.phase ≠ .fault) (ha : s.phase ∉ acc) (w : Word)
    (body : State → Except ErrCode State) : runCommand w acc body s = .next (s.enterFault .seq w) := by
  simp [runCommand, h, ha, raiseFault_of_ne h]

theorem runCommand_ok {s t : State} {acc : List Phase} {body : State → Except ErrCode State} (h : s.phase ≠ .fault)
    (ha : s.phase ∈ acc) (hb : body s = .ok t) (w : Word) : runCommand w acc body s = .next t := by
  simp [runCommand, h, ha, hb]

theorem runCommand_error {s : State} {acc : List Phase} {body : State → Except ErrCode State} {c : ErrCode}
    (h : s.phase ≠ .fault) (ha : s.phase ∈ acc) (hb : body s = .error c) (w : Word) :
    runCommand w acc body s = .next (s.enterFault c w) := by
  simp [runCommand, h, ha, hb, raiseFault_of_ne h]

/-- Everything a command frame can do: nothing in FAULT; ERR_SEQ in a wrong phase; its body's state; its body's
fault. -/
theorem runCommand_cases {s t : State} {w : Word} {acc : List Phase} {body : State → Except ErrCode State}
    (h : runCommand w acc body s = .next t) :
    (s.phase = .fault ∧ t = s) ∨
    (s.phase ≠ .fault ∧ s.phase ∉ acc ∧ t = s.enterFault .seq w) ∨
    (s.phase ≠ .fault ∧ s.phase ∈ acc ∧ body s = .ok t) ∨
    (s.phase ≠ .fault ∧ s.phase ∈ acc ∧ ∃ c, body s = .error c ∧ t = s.enterFault c w) := by
  by_cases hf : s.phase = .fault
  · rw [runCommand_in_fault hf] at h
    exact .inl ⟨hf, (Host.Outcome.next.inj h).symm⟩
  · by_cases ha : s.phase ∈ acc
    · cases hb : body s with
      | ok u =>
        rw [runCommand_ok hf ha hb] at h
        exact .inr (.inr (.inl ⟨hf, ha, by rw [Host.Outcome.next.inj h]⟩))
      | error c =>
        rw [runCommand_error hf ha hb] at h
        exact .inr (.inr (.inr ⟨hf, ha, c, rfl, (Host.Outcome.next.inj h).symm⟩))
    · rw [runCommand_wrong_phase hf ha] at h
      exact .inr (.inl ⟨hf, ha, (Host.Outcome.next.inj h).symm⟩)

theorem runCommand_answers (s : State) (w : Word) (acc : List Phase) (body : State → Except ErrCode State) :
    ∃ t, runCommand w acc body s = .next t := by
  unfold runCommand raiseFault
  split
  · exact ⟨_, rfl⟩
  · split
    · split <;> exact ⟨_, rfl⟩
    · exact ⟨_, rfl⟩

/-! ### Appending to OUT (20_memory R36) -/

theorem State.roomFor_iff (s : State) (n : Nat) :
    s.roomFor n = true ↔ s.ocnt.toNat + n ≤ s.outCap.toNat := by simp [State.roomFor]

/-- With room for a byte the cursor does not wrap. -/
theorem State.putOut_ocnt_toNat {s : State} (h : s.ocnt.toNat < s.outCap.toNat) (b : Byte) :
    (s.putOut b).ocnt.toNat = s.ocnt.toNat + 1 := by
  have := s.outCap.isLt
  rw [State.putOut_ocnt, BitVec.toNat_add, show BitVec.toNat (1 : Word) = 1 from rfl]
  omega

@[simp] theorem State.putOuts_nil (s : State) : s.putOuts [] = s := rfl

@[simp] theorem State.putOuts_cons (s : State) (b : Byte) (bs : List Byte) :
    s.putOuts (b :: bs) = (s.putOut b).putOuts bs := rfl

/-- Appending changes `ocnt` and OUT only. -/
theorem State.putOuts_frame (s : State) (bs : List Byte) : ∃ n o, s.putOuts bs = { s with ocnt := n, out := o } := by
  induction bs generalizing s with
  | nil => exact ⟨_, _, rfl⟩
  | cons b bs ih =>
    obtain ⟨n, o, h⟩ := ih (s.putOut b)
    exact ⟨n, o, h⟩

@[simp] theorem State.putOuts_phase (s : State) (bs : List Byte) : (s.putOuts bs).phase = s.phase := by
  obtain ⟨n, o, h⟩ := s.putOuts_frame bs; rw [h]
@[simp] theorem State.putOuts_err (s : State) (bs : List Byte) : (s.putOuts bs).err = s.err := by
  obtain ⟨n, o, h⟩ := s.putOuts_frame bs; rw [h]
@[simp] theorem State.putOuts_errinfo (s : State) (bs : List Byte) : (s.putOuts bs).errinfo = s.errinfo := by
  obtain ⟨n, o, h⟩ := s.putOuts_frame bs; rw [h]
@[simp] theorem State.putOuts_pad (s : State) (bs : List Byte) : (s.putOuts bs).pad = s.pad := by
  obtain ⟨n, o, h⟩ := s.putOuts_frame bs; rw [h]
@[simp] theorem State.putOuts_icnt (s : State) (bs : List Byte) : (s.putOuts bs).icnt = s.icnt := by
  obtain ⟨n, o, h⟩ := s.putOuts_frame bs; rw [h]
@[simp] theorem State.putOuts_nnodes (s : State) (bs : List Byte) : (s.putOuts bs).nnodes = s.nnodes := by
  obtain ⟨n, o, h⟩ := s.putOuts_frame bs; rw [h]
@[simp] theorem State.putOuts_acc (s : State) (bs : List Byte) : (s.putOuts bs).acc = s.acc := by
  obtain ⟨n, o, h⟩ := s.putOuts_frame bs; rw [h]
@[simp] theorem State.putOuts_accn (s : State) (bs : List Byte) : (s.putOuts bs).accn = s.accn := by
  obtain ⟨n, o, h⟩ := s.putOuts_frame bs; rw [h]
@[simp] theorem State.putOuts_hold (s : State) (bs : List Byte) : (s.putOuts bs).hold = s.hold := by
  obtain ⟨n, o, h⟩ := s.putOuts_frame bs; rw [h]
@[simp] theorem State.putOuts_holdv (s : State) (bs : List Byte) : (s.putOuts bs).holdv = s.holdv := by
  obtain ⟨n, o, h⟩ := s.putOuts_frame bs; rw [h]
@[simp] theorem State.putOuts_cur (s : State) (bs : List Byte) : (s.putOuts bs).cur = s.cur := by
  obtain ⟨n, o, h⟩ := s.putOuts_frame bs; rw [h]
@[simp] theorem State.putOuts_node (s : State) (bs : List Byte) : (s.putOuts bs).node = s.node := by
  obtain ⟨n, o, h⟩ := s.putOuts_frame bs; rw [h]
@[simp] theorem State.putOuts_code (s : State) (bs : List Byte) : (s.putOuts bs).code = s.code := by
  obtain ⟨n, o, h⟩ := s.putOuts_frame bs; rw [h]
@[simp] theorem State.putOuts_outCap (s : State) (bs : List Byte) : (s.putOuts bs).outCap = s.outCap := by
  obtain ⟨n, o, h⟩ := s.putOuts_frame bs; rw [h]
@[simp] theorem State.putOuts_bus (s : State) (bs : List Byte) : (s.putOuts bs).bus = s.bus := by
  obtain ⟨n, o, h⟩ := s.putOuts_frame bs; rw [h]
@[simp] theorem State.putOuts_reply (s : State) (bs : List Byte) : (s.putOuts bs).reply = s.reply := by
  obtain ⟨n, o, h⟩ := s.putOuts_frame bs; rw [h]
@[simp] theorem State.putOuts_draws (s : State) (bs : List Byte) : (s.putOuts bs).draws = s.draws := by
  obtain ⟨n, o, h⟩ := s.putOuts_frame bs; rw [h]

/-- Appending is a change of `ocnt` and OUT. -/
theorem State.putOuts_eq (s : State) (bs : List Byte) :
    s.putOuts bs = { s with ocnt := (s.putOuts bs).ocnt, out := (s.putOuts bs).out } := by
  rw [State.mk.injEq]; simp

/-- Appending moves the cursor by the number of bytes, when they fit. -/
theorem State.putOuts_ocnt_toNat {s : State} {bs : List Byte} (h : s.ocnt.toNat + bs.length ≤ s.outCap.toNat) :
    (s.putOuts bs).ocnt.toNat = s.ocnt.toNat + bs.length := by
  induction bs generalizing s with
  | nil => rfl
  | cons b bs ih =>
    simp only [List.length_cons] at h
    have h1 : (s.putOut b).ocnt.toNat = s.ocnt.toNat + 1 := State.putOut_ocnt_toNat (by omega) b
    rw [State.putOuts_cons, ih (by rw [h1, State.putOut_outCap]; omega), h1, List.length_cons]
    omega

/-- Appending writes exactly the bytes from the cursor on, when they fit. -/
theorem State.putOuts_read {s : State} {bs : List Byte} (h : s.ocnt.toNat + bs.length ≤ s.outCap.toNat) (a : Nat) :
    Memory.read (s.putOuts bs).out a =
      if s.ocnt.toNat ≤ a ∧ a < s.ocnt.toNat + bs.length then bs[a - s.ocnt.toNat]? else Memory.read s.out a := by
  induction bs generalizing s with
  | nil => rw [if_neg (by simp)]; rfl
  | cons b bs ih =>
    simp only [List.length_cons] at h ⊢
    have h1 : (s.putOut b).ocnt.toNat = s.ocnt.toNat + 1 := State.putOut_ocnt_toNat (by omega) b
    rw [State.putOuts_cons, ih (by rw [h1, State.putOut_outCap]; omega), h1, State.putOut_out, Memory.read_write]
    by_cases ha : a = s.ocnt.toNat
    · subst ha
      rw [if_neg (by omega), if_pos rfl, if_pos (by omega)]; simp
    · by_cases hb : s.ocnt.toNat + 1 ≤ a ∧ a < s.ocnt.toNat + 1 + bs.length
      · rw [if_pos hb, if_pos (by omega), show a - s.ocnt.toNat = (a - (s.ocnt.toNat + 1)) + 1 by omega]; simp
      · rw [if_neg hb, if_neg ha, if_neg (by omega)]

theorem State.putOuts_wf {s : State} (bs : List Byte) (h : Memory.wf s.out) : Memory.wf (s.putOuts bs).out := by
  induction bs generalizing s with
  | nil => exact h
  | cons b bs ih => exact ih (s := s.putOut b) (Memory.wf_write _ _ _ h)

/-! ### NODE (10_state R22) -/

/-- What the machine reads of NODE depends on `nnodes` and NODE only. -/
theorem State.nodeAt_congr {s t : State} (hn : t.nnodes = s.nnodes) (hm : t.node = s.node) : t.nodeAt = s.nodeAt := by
  funext i; simp [State.nodeAt, hn, hm]

/-- A load with room: the new record stands at `nnodes`, the others are as before. -/
theorem State.pushNode_nnodes_toNat {s : State} (h : s.nnodes.toNat < Config.nodeCap) (r : NodeRec) :
    (s.pushNode r).nnodes.toNat = s.nnodes.toNat + 1 := by
  simp only [Config.nodeCap] at h
  rw [State.pushNode_nnodes, BitVec.toNat_add, show BitVec.toNat (1 : BitVec 10) = 1 from rfl]
  omega

theorem State.pushNode_nodeAt {s : State} (h : s.nnodes.toNat < Config.nodeCap) (r : NodeRec) (i : Nat) :
    (s.pushNode r).nodeAt i = if i = s.nnodes.toNat then r else s.nodeAt i := by
  simp only [State.nodeAt, State.pushNode_nnodes_toNat h, State.pushNode_node, Memory.read_write]
  by_cases hi : i = s.nnodes.toNat
  · simp [hi]
  · by_cases hl : i < s.nnodes.toNat
    · simp [hi, hl, Nat.lt_succ_of_lt hl]
    · have : ¬ i < s.nnodes.toNat + 1 := by omega
      simp [hi, hl, this]

/-! ### The walk (42 R80) -/

/-- Everything one bit of the walk can do when it raises nothing: a child exists on the bit's side, and either it is a
leaf, whose value is appended and the walk back at the root, or the walk stands on it. -/
theorem walkBit_ok {b : Bool} {s t : State} (h : walkBit b s = .ok t) :
    s.nnodes ≠ 0 ∧ ∃ next, (s.nodeAt s.cur.toNat).child b = some next ∧
      ((∃ v, s.nodeAt next.toNat = .leaf v ∧ s.ocnt.toNat < s.outCap.toNat ∧ t = { s.putOut v with cur := 0 }) ∨
        ((s.nodeAt next.toNat).isLeaf = false ∧ t = { s with cur := next })) := by
  unfold walkBit at h
  split at h
  · cases h
  · rename_i hn
    refine ⟨hn, ?_⟩
    split at h
    · cases h
    · rename_i next hc
      refine ⟨next, hc, ?_⟩
      split at h
      · rename_i v hv
        split at h
        · rename_i hr
          exact .inl ⟨v, hv, by have := (State.roomFor_iff s 1).mp hr; omega, (Except.ok.inj h).symm⟩
        · cases h
      · rename_i hv
        exact .inr ⟨by rw [hv]; rfl, (Except.ok.inj h).symm⟩

/-- A property that one bit of the walk keeps, the whole walk keeps. -/
theorem walkBits_induct {P : State → Prop} (hP : ∀ b s t, P s → walkBit b s = .ok t → P t)
    {bits : BitString} {s t : State} (hs : P s) (h : walkBits bits s = .ok t) : P t := by
  induction bits generalizing s with
  | nil => cases h; exact hs
  | cons b rest ih =>
    unfold walkBits at h
    split at h
    · rename_i u hu; exact ih (hP b s u hs hu) h
    · cases h

/-- The walk changes `cur`, `ocnt` and OUT only. -/
theorem walkBits_frame {bits : BitString} {s t : State} (h : walkBits bits s = .ok t) :
    { t with cur := s.cur, ocnt := s.ocnt, out := s.out } = s := by
  refine walkBits_induct (P := fun u => { u with cur := s.cur, ocnt := s.ocnt, out := s.out } = s) ?_ rfl h
  intro b u v hu hv
  obtain ⟨-, next, -, ⟨x, -, -, rfl⟩ | ⟨-, rfl⟩⟩ := walkBit_ok hv
  · exact hu
  · exact hu

end Sys2Proof.Machine
end

