-- ==== Sys2Proof/Laws/Exec.lean ====
section
/-! SUPPORT. Everything a command, a word and a step can do, said once. -/

namespace Sys2Proof.Machine

open Sys2Proof

/-- The body of a command: what it does in a phase that accepts it. -/
def instrBody : Instr → State → Except ErrCode State
  | .init => fun s => .ok s.openSession
  | .ldleaf val => loadRecord (.leaf val)
  | .ldint hasL left hasR right => loadRecord (.int hasL left hasR right)
  | .build => buildBody
  | .enc val => encBody val
  | .flush => flushBody
  | .setpad pad => setpadBody pad
  | .decb val => decbBody val
  | .decend => decendBody

/-- A legal command other than INIT is its body in the command frame. -/
theorem exec_eq_runCommand {i : Instr} (hi : i ≠ .init) (hw : i.wf = true) (s : State) :
    exec i s = runCommand (encode i) (acceptedIn i) (instrBody i) s := by
  cases i with
  | init => exact absurd rfl hi
  | ldint hasL left hasR right => exact if_pos hw
  | _ => rfl

theorem walkBit_error_ne_none {b : Bool} {s : State} {c : ErrCode} (h : walkBit b s = .error c) : c ≠ .none := by
  unfold walkBit at h
  split at h
  · cases h; decide
  · split at h
    · cases h; decide
    · split at h
      · split at h
        · cases h
        · cases h; decide
      · cases h

theorem walkBits_error_ne_none {bits : BitString} {s : State} {c : ErrCode} (h : walkBits bits s = .error c) :
    c ≠ .none := by
  induction bits generalizing s with
  | nil => cases h
  | cons b rest ih =>
    unfold walkBits at h
    split at h
    · exact ih h
    · rename_i e he; cases h; exact walkBit_error_ne_none he

theorem endPayload_error_ne_none {s : State} {c : ErrCode} (h : endPayload s = .error c) : c ≠ .none := by
  unfold endPayload at h
  split at h
  · cases h
  · cases h; decide

/-- A fault a command raises is never ERR_NONE (60 R88). -/
theorem instrBody_error_ne_none {i : Instr} {s : State} {c : ErrCode} (h : instrBody i s = .error c) : c ≠ .none := by
  cases i with
  | init => cases h
  | ldleaf val =>
    simp only [instrBody, loadRecord] at h
    split at h
    · cases h
    · cases h; decide
  | ldint hasL left hasR right =>
    simp only [instrBody, loadRecord] at h
    split at h
    · cases h
    · cases h; decide
  | build =>
    simp only [instrBody, buildBody] at h
    split at h
    · cases h
    · cases h; decide
  | enc val =>
    simp only [instrBody, encBody] at h
    split at h
    · cases h; decide
    · split at h
      · cases h
      · cases h; decide
  | flush =>
    simp only [instrBody, flushBody] at h
    split at h
    · cases h
    · split at h
      · cases h
      · cases h; decide
  | setpad pad => cases h
  | decb val =>
    simp only [instrBody, decbBody] at h
    split at h
    · cases h
    · rename_i e he
      cases h
      split at he
      · exact walkBits_error_ne_none he
      · cases he
  | decend =>
    simp only [instrBody, decendBody] at h
    split at h
    · split at h
      · exact endPayload_error_ne_none h
      · rename_i e he; cases h; exact walkBits_error_ne_none he
    · split at h
      · exact endPayload_error_ne_none h
      · cases h; decide

/-- Everything a command can do: INIT opens a session; in FAULT any other is ignored; a fault is entered, with the
command's word; or, in a phase that accepts it, the command's own effect happens. -/
theorem exec_cases {i : Instr} {s t : State} (h : exec i s = .next t) :
    (i = .init ∧ t = s.openSession) ∨
    (i ≠ .init ∧ s.phase = .fault ∧ t = s) ∨
    (i ≠ .init ∧ s.phase ≠ .fault ∧ ∃ c, c ≠ .none ∧ t = s.enterFault c (encode i)) ∨
    (i ≠ .init ∧ s.phase ≠ .fault ∧ s.phase ∈ acceptedIn i ∧ instrBody i s = .ok t) := by
  by_cases hi : i = .init
  · subst hi; exact .inl ⟨rfl, (Host.Outcome.next.inj h).symm⟩
  · refine .inr ?_
    by_cases hw : i.wf = true
    · rw [exec_eq_runCommand hi hw] at h
      rcases runCommand_cases h with ⟨hf, rfl⟩ | ⟨hf, -, rfl⟩ | ⟨hf, ha, hb⟩ | ⟨hf, -, c, hc, rfl⟩
      · exact .inl ⟨hi, hf, rfl⟩
      · exact .inr (.inl ⟨hi, hf, .seq, by decide, rfl⟩)
      · exact .inr (.inr ⟨hi, hf, ha, hb⟩)
      · exact .inr (.inl ⟨hi, hf, c, instrBody_error_ne_none hc, rfl⟩)
    · cases i with
      | ldint hasL left hasR right =>
        have h : raiseFault .illcmd (encode (.ldint hasL left hasR right)) s = .next t := h ▸ (if_neg hw).symm
        by_cases hf : s.phase = .fault
        · rw [raiseFault_in_fault hf] at h
          exact .inl ⟨hi, hf, (Host.Outcome.next.inj h).symm⟩
        · rw [raiseFault_of_ne hf] at h
          exact .inr (.inl ⟨hi, hf, .illcmd, by decide, (Host.Outcome.next.inj h).symm⟩)
      | _ => exact absurd rfl hw

/-- Everything a word written to CMD can do: its command, or in no phase but FAULT the fault ERR_ILLCMD. -/
theorem runWord_cases {w : Word} {s t : State} (h : runWord w s = .next t) :
    (∃ i, decode w = .ok i ∧ exec i s = .next t) ∨
    (∃ e, decode w = .error e ∧ ((s.phase = .fault ∧ t = s) ∨ (s.phase ≠ .fault ∧ t = s.enterFault .illcmd w))) := by
  unfold runWord at h
  split at h
  · rename_i i hi; exact .inl ⟨i, hi, h⟩
  · rename_i e he
    refine .inr ⟨e, he, ?_⟩
    by_cases hf : s.phase = .fault
    · rw [raiseFault_in_fault hf] at h; exact .inl ⟨hf, (Host.Outcome.next.inj h).symm⟩
    · rw [raiseFault_of_ne hf] at h; exact .inr ⟨hf, (Host.Outcome.next.inj h).symm⟩

/-- A host read of OUT changes `reply` and `draws` only. -/
theorem State.readOut_eq (s : State) (a : Nat) :
    s.readOut a = { s with reply := (s.readOut a).reply, draws := (s.readOut a).draws } := by
  unfold State.readOut
  split <;> rfl

/-- Everything a step can do: idle; a word written to CMD; a new session by reset; or an access that changes the
host's side (`bus`, `reply`, `draws`) only. -/
theorem step_cases {s t : State} (h : step s = .next t) :
    (s.bus = [] ∧ t = s) ∨
    (∃ w rest, s.bus = .regWrite 0 w :: rest ∧ runWord w s.takeAccess = .next t) ∨
    (∃ rest, s.bus = .reset :: rest ∧ t = s.takeAccess.openSession) ∨
    (∃ a rest, s.bus = a :: rest ∧ a ≠ .reset ∧ (∀ w, a ≠ .regWrite 0 w) ∧
      t = { s with bus := rest, reply := t.reply, draws := t.draws }) := by
  unfold step serveNext at h
  split at h
  · rename_i hb; exact .inl ⟨hb, (Host.Outcome.next.inj h).symm⟩
  · rename_i a rest hb
    refine .inr ?_
    cases a with
    | regWrite off w =>
      simp only [serve] at h
      split at h
      · unfold writeReg at h
        split at h
        · rename_i h0; subst h0; exact .inl ⟨w, rest, hb, h⟩
        · rename_i h0
          obtain rfl := Host.Outcome.next.inj h
          refine .inr (.inr ⟨_, rest, hb, by simp, fun w' hw => h0 (by injection hw), ?_⟩)
          simp [State.takeAccess, hb]
      · cases h
    | regRead off =>
      simp only [serve] at h
      split at h
      · obtain rfl := Host.Outcome.next.inj h
        exact .inr (.inr ⟨_, rest, hb, by simp, by simp, by simp [State.takeAccess, hb]⟩)
      · cases h
    | outRead addr =>
      simp only [serve] at h
      obtain rfl := Host.Outcome.next.inj h
      refine .inr (.inr ⟨_, rest, hb, by simp, by simp, ?_⟩)
      rw [State.readOut_eq]; simp [State.takeAccess, hb]
    | reset =>
      simp only [serve] at h
      exact .inr (.inl ⟨rest, hb, (Host.Outcome.next.inj h).symm⟩)

/-- A walk emits at most one symbol a bit. -/
theorem decodeFrom_length {n : Nat} {node : Nat → NodeRec} {bits : BitString} {c : Nat} {r : List Byte × Nat}
    (h : decodeFrom n node bits c = some r) : r.1.length ≤ bits.length := by
  induction bits generalizing c r with
  | nil => cases h; simp
  | cons b rest ih =>
    simp only [decodeFrom] at h
    split at h
    · cases h
    · split at h
      · cases h
      · split at h
        · obtain ⟨q, hq, rfl⟩ := Option.map_eq_some_iff.mp h
          simpa using ih hq
        · exact (ih h).trans (by simp)

end Sys2Proof.Machine
end

