-- ==== Sys2Proof/Laws/PerInstr.lean ====
section
/-! SUPPORT. A fact of every command as syntax: bits [31:24] of its word are its opcode (30_encoding R47). -/

namespace Sys2Proof.Laws

open Sys2Proof

/-- Bits [31:24] of the command's word are its opcode. -/
def OpcodeByte.Statement (i : Instr) : Prop := bitField (encode i) 24 8 = i.opcode

/-- The number a command's word writes: the opcode above 24 operand bits. -/
theorem toNat_opcode_append (op : Byte) (operands : BitVec 24) :
    BitVec.toNat (w := 32) (op ++ operands) = op.toNat * 2 ^ 24 + operands.toNat := by
  refine (BitVec.toNat_append op operands).trans ?_
  rw [Nat.shiftLeft_eq, Nat.mul_comm, Nat.two_pow_add_eq_or_of_lt operands.isLt]

/-- The upper byte of a word made of an opcode and 24 operand bits is the opcode. -/
theorem opcode_of_append (op : Byte) (operands : BitVec 24) : bitField (op ++ operands) 24 8 = op := by
  apply BitVec.eq_of_toNat_eq
  have h1 := operands.isLt
  have h2 := op.isLt
  rw [bitField, BitVec.extractLsb'_toNat, toNat_opcode_append, Nat.shiftRight_eq_div_pow]
  omega

theorem OpcodeByte.init : OpcodeByte.Statement .init := opcode_of_append _ _
theorem OpcodeByte.ldleaf (val : Byte) : OpcodeByte.Statement (.ldleaf val) := opcode_of_append _ _
theorem OpcodeByte.ldint (hasL : Bool) (left : NodeIndex) (hasR : Bool) (right : NodeIndex) :
    OpcodeByte.Statement (.ldint hasL left hasR right) := opcode_of_append _ _
theorem OpcodeByte.build : OpcodeByte.Statement .build := opcode_of_append _ _
theorem OpcodeByte.enc (val : Byte) : OpcodeByte.Statement (.enc val) := opcode_of_append _ _
theorem OpcodeByte.flush : OpcodeByte.Statement .flush := opcode_of_append _ _
theorem OpcodeByte.setpad (pad : BitVec 3) : OpcodeByte.Statement (.setpad pad) := opcode_of_append _ _
theorem OpcodeByte.decb (val : Byte) : OpcodeByte.Statement (.decb val) := opcode_of_append _ _
theorem OpcodeByte.decend : OpcodeByte.Statement .decend := opcode_of_append _ _

end Sys2Proof.Laws
end

