-- ==== Sys2Proof/Tests/Slice0.lean ====
section
/-! SUPPORT. The model's own tests: the expected results are those of spec/95_test_vectors and of the rules' examples.
Each statement for the provers that has hypotheses has a witness here, named test_witness_<statement>. -/

namespace Sys2Proof.Tests

open Sys2Proof Sys2Proof.Machine

/-! ### WellFormed: an ill-formed term for each check -/

theorem test_wf_refuses_absent_left : (Instr.ldint false 1 false 0).wf = false := by decide
theorem test_wf_refuses_absent_right : (Instr.ldint false 0 false 1).wf = false := by decide
theorem test_wf_accepts_present_zero : (Instr.ldint true 0 true 0).wf = true := by decide

/-! ### Decoding: words written out bit by bit from R48 to R51 -/

theorem test_decode_init : decode 0b00000001_000000000000000000000000 = .ok .init := by decide
theorem test_decode_ldleaf : decode 0b00000010_0000000000000000_10000001 = .ok (.ldleaf 129) := by decide
/-- op, [23:22], hasR, right, [11:10], hasL, left. -/
theorem test_decode_ldint :
    decode 0b00000011_00_1_100000010_00_1_000000001 = .ok (.ldint true 1 true 258) := by decide
theorem test_decode_build : decode 0b00000100_000000000000000000000000 = .ok .build := by decide
theorem test_decode_enc : decode 0b00000101_0000000000000000_01000001 = .ok (.enc 65) := by decide
theorem test_decode_flush : decode 0b00000110_000000000000000000000000 = .ok .flush := by decide
theorem test_decode_setpad : decode 0b00000111_000000000000000000000_101 = .ok (.setpad 5) := by decide
theorem test_decode_decb : decode 0b00001000_0000000000000000_11000110 = .ok (.decb 0xC6) := by decide
theorem test_decode_decend : decode 0b00001001_000000000000000000000000 = .ok .decend := by decide

/-- Vectors W2, W4, W16, W20, W22 and, for the two reserved pairs of LDINT, W13 and W14. -/
theorem test_decode_reserved :
    decode 0x01000001 = .error .reservedBits ∧ decode 0x02000100 = .error .reservedBits ∧
    decode 0x04800000 = .error .reservedBits ∧ decode 0x07000008 = .error .reservedBits ∧
    decode 0x08000100 = .error .reservedBits ∧ decode 0x03400000 = .error .reservedBits ∧
    decode 0x03000400 = .error .reservedBits := by decide

/-- Vectors W5 to W7, W10 and the examples of R49: the encoder gives the spec's words. -/
theorem test_encode_words :
    encode (.ldint true 1 true 4) = 0x03204201 ∧ encode (.ldint true 1 false 0) = 0x03000201 ∧
    encode (.ldint false 0 true 1) = 0x03201000 ∧ encode (.ldint true 511 true 511) = 0x033FF3FF ∧
    encode (.enc 65) = 0x05000041 ∧ encode (.ldleaf 255) = 0x020000FF ∧ encode (.setpad 3) = 0x07000003 := by decide

theorem test_decodeTableWord : decodeTableWord 32 0x080000C6 = some (.decb 0xC6) := by decide

/-! ### The states the tests start from -/

/-- In LOAD, with these records loaded, and an OUT of `cap` bytes. -/
def loaded (records : List NodeRec) (cap : Word) : State :=
  { State.reset with
    node := (List.range records.length).zip records, nnodes := BitVec.ofNat 10 records.length, outCap := cap }

/-- In READY, with these records and this code table. -/
def ready (records : List NodeRec) (codes : Memory CodeEntry) (cap : Word) : State :=
  { loaded records cap with phase := .ready, code := codes }

/-- The special shape of vector B2. -/
def recordsB2 : List NodeRec := [.int true 1 false 0, .leaf 7]

/-- The three-leaf tree of vector B6. -/
def recordsB6 : List NodeRec := [.int true 1 true 2, .leaf 0x61, .int true 3 true 4, .leaf 0x62, .leaf 0x63]

/-- Vector B2, with OUT of `cap` bytes. -/
def readyB2 (cap : Word) : State := ready recordsB2 [(7, ⟨[false]⟩)] cap

/-- Vector B6, with OUT of `cap` bytes. -/
def readyB6 (cap : Word) : State :=
  ready recordsB6 [(0x61, ⟨[false]⟩), (0x62, ⟨[true, false]⟩), (0x63, ⟨[true, true]⟩)] cap

/-- Vector B3: a bare-leaf root. -/
def readyB3 (cap : Word) : State := ready [.leaf 9] [(9, ⟨[false]⟩)] cap

/-- The session of B6 in ENC with these pending bits. -/
def encB6 (acc : Byte) (accn : BitVec 3) (cap : Word) : State :=
  { readyB6 cap with phase := .enc, acc := acc, accn := accn }

/-- A session in DEC with a byte held and a padding count. -/
def holding (s : State) (hold : Byte) (pad : BitVec 3) : State :=
  { s with phase := .dec, hold := hold, holdv := true, pad := pad, icnt := 1 }

/-- A faulted session. -/
def faulted : State := { readyB2 8 with phase := .fault, err := .nocode, errinfo := 0x05000008 }

/-- What an outcome's next state answers, if there is one. -/
def ofNext {α : Type} (o : Outcome) (f : State → α) : Option α :=
  match o with
  | .next t => some (f t)
  | .fault _ => none
  | .refused _ => none

/-- `phase`, `err`, `errinfo`. -/
def faultFields (s : State) : Phase × ErrCode × Word := (s.phase, s.err, s.errinfo)

/-! ### One step of each command -/

/-- B26 and R61: INIT leaves FAULT, everything 0. -/
theorem test_init_leaves_fault :
    ofNext (exec .init faulted) (fun t => (faultFields t, t.nnodes, t.codeValid 7)) =
      some ((.load, .none, 0), 0, false) := by decide

/-- The example of R62. -/
theorem test_ldleaf_appends :
    ofNext (exec (.ldleaf 5) (loaded [.int true 1 true 2, .leaf 1] 8)) (fun t => (t.nnodes, t.nodeAt 2)) =
      some (3, .leaf 5) := by decide

/-- B18: the 512th load. -/
theorem test_ldleaf_full :
    ofNext (exec (.ldleaf 0) { loaded [] 8 with nnodes := 511 }) (fun t => (faultFields t, t.nnodes)) =
      some ((.fault, .treefull, 0x02000000), 511) := by decide

/-- The example of R63. -/
theorem test_ldint_appends :
    ofNext (exec (.ldint true 1 true 4) (loaded [] 8)) (fun t => (t.nnodes, t.nodeAt 0)) =
      some (1, .int true 1 true 4) := by decide

/-- B18 with LDINT as the 512th load. -/
theorem test_ldint_full :
    ofNext (exec (.ldint true 1 true 2) { loaded [] 8 with nnodes := 511 }) faultFields =
      some (.fault, .treefull, 0x03202201) := by decide

/-- B6: the codes of the three-leaf tree. -/
theorem test_build_codes :
    ofNext (exec .build (loaded recordsB6 8)) (fun t => (t.phase, t.codeAt 0x61, t.codeAt 0x62, t.codeAt 0x63)) =
      some (.ready, some ⟨[false]⟩, some ⟨[true, false]⟩, some ⟨[true, true]⟩) := by decide

/-- B13: a duplicate leaf value. -/
theorem test_build_duplicate :
    ofNext (exec .build (loaded [.int true 1 true 2, .leaf 1, .leaf 1] 8)) faultFields =
      some (.fault, .tree, 0x04000000) := by decide

/-- P3 step 13, the example of R73: a code that straddles a byte. -/
theorem test_enc_straddles :
    ofNext (exec (.enc 0x62) (encB6 0x4C 7 8)) (fun t => (t.out, t.ocnt, t.acc, t.accn, t.icnt)) =
      some ([(0, 0x4D)], 1, 0x00, 1, 1) := by decide

/-- E8: OUT is full; nothing is written. -/
theorem test_enc_overflow :
    ofNext (exec (.enc 0x63) { encB6 0xFC 6 1 with ocnt := 1, out := [(0, 0xFF)], icnt := 7 })
        (fun t => (faultFields t, t.acc, t.accn, t.status)) =
      some ((.fault, .ovf, 0x05000063), 0xFC, 6, 0x67) := by decide

/-- The example of R74. -/
theorem test_flush_pads :
    ofNext (exec .flush { encB6 0x60 3 8 with ocnt := 1, out := [(0, 0x4D)] })
        (fun t => (t.phase, t.out, t.pad, t.ocnt)) =
      some (.doneE, [(0, 0x4D), (1, 0x60)], 5, 2) := by decide

/-- E8b: FLUSH needs one more byte. -/
theorem test_flush_overflow :
    ofNext (exec .flush { encB6 0xC0 2 1 with ocnt := 1, out := [(0, 0xFF)] })
        (fun t => (faultFields t, t.pad, t.status)) =
      some ((.fault, .ovf, 0x06000000), 0, 0x27) := by decide

/-- The example of R81. -/
theorem test_setpad : ofNext (exec (.setpad 3) (readyB2 8)) (fun t => (t.pad, t.phase, t.status)) =
    some (3, .dec, 0x03) := by decide

/-- X22: a second SETPAD. -/
theorem test_setpad_twice :
    ofNext (exec (.setpad 1) { readyB2 8 with phase := .dec, pad := 1 }) (fun t => (faultFields t, t.pad)) =
      some ((.fault, .seq, 0x07000001), 1) := by decide

/-- P3 decode step 10: the walk crosses a byte. -/
theorem test_decb_walks :
    ofNext (exec (.decb 0x60) (holding (readyB6 16) 0x4D 5)) (fun t => (t.ocnt, t.cur, t.hold, t.icnt, t.status)) =
      some (5, 2, 0x60, 2, 0x83) := by decide

/-- X18: the fifth symbol does not fit; the four before it are discarded. -/
theorem test_decb_overflow :
    ofNext (exec (.decb 0x00) (holding (readyB6 4) 0x00 0)) (fun t => (faultFields t, t.ocnt, t.out, t.icnt)) =
      some ((.fault, .ovf, 0x08000000), 0, [], 1) := by decide

/-- P3 decode step 11. -/
theorem test_decend_last_bits :
    ofNext (exec .decend { holding (readyB6 16) 0x60 5 with cur := 2, ocnt := 5 })
        (fun t => (t.ocnt, t.out, t.cur, t.status)) =
      some (7, [(5, 0x62), (6, 0x63)], 0, 0x05) := by decide

/-- X13: the stream ends inside a code. -/
theorem test_decend_truncated :
    ofNext (exec .decend (holding (readyB6 16) 0x80 7)) (fun t => (faultFields t, t.cur, t.hold)) =
      some ((.fault, .trunc, 0x09000000), 0, 0x80) := by decide

/-! ### The host's side -/

/-- A placed word is the first command after reset: LDLEAF 5 (W3). -/
theorem test_step_runs_placed_word :
    ofNext (step (State.reset.withFetchWord 32 0x02000005)) (fun t => (t.nnodes, t.nodeAt 0, t.bus)) =
      some (1, .leaf 5, []) := by decide

/-- R26: STATUS in ENC with three pending bits. -/
theorem test_status_read :
    ofNext (step { encB6 0x40 3 8 with bus := [.regRead 0x04] }) State.reply = some (.word 0x00000032) := by decide

/-- R46: a byte of the result is returned in DONE. -/
theorem test_out_read :
    ofNext (step { readyB6 8 with phase := .doneE, ocnt := 1, out := [(0, 0x4D)], bus := [.outRead 0] }) State.reply =
      some (.byte 0x4D) := by decide

/-- The examples of R72 and R78. -/
theorem test_pack_unpack :
    pack [false, true, false, false, true, true, false, true, false, true, true] = ([0x4D, 0x60], 5) ∧
      pack [true] = ([0x80], 7) ∧ pack [] = ([], 0) ∧ unpack [0xFF] 7 = [true] ∧
      unpack [0x00] 3 = [false, false, false, false, false] := by decide

/-! ### The invariant holds somewhere -/

/-- Vector B6 meets the invariant. -/
theorem test_inv_readyB6 : (readyB6 16).Inv := by
  constructor <;> decide

/-- Vector B2 meets the invariant, with an OUT of four bytes. -/
theorem test_inv_readyB2 : (readyB2 4).Inv := by
  constructor <;> decide

/-- The records of B6, loaded and not yet built, meet the invariant. -/
theorem test_inv_loadedB6 : (loaded recordsB6 8).Inv := by
  constructor <;> decide

/-- A faulted session meets the invariant. -/
theorem test_inv_faulted : faulted.Inv := by
  constructor <;> decide

/-! ### Witnesses: states and operands that meet the hypotheses of each statement -/

/-- A state whose next access is `a`. -/
def withAccess (s : State) (a : HostAccess) : State := { s with bus := [a] }

theorem test_witness_DecodeOfEncode : (Instr.ldint true 511 false 0).wf = true := by decide
theorem test_witness_EncodeOfDecode : decode 0x033FF3FF = .ok (.ldint true 511 true 511) := by decide
theorem test_witness_MatchAndMask :
    (0x03201000 : Word) &&& 0xFFC00C00 = 0x03000000 ∧ (0x03201000 : Word).toNat % 512 = 0 ∧
      (0x03201000 : Word).getLsbD 21 = true := by decide
theorem test_witness_OperandFields :
    decode 0x020000FF = .ok (.ldleaf 255) ∧ decode 0x05000000 = .ok (.enc 0) ∧ decode 0x080000FF = .ok (.decb 255) ∧
      decode 0x07000007 = .ok (.setpad 7) ∧ decode 0x033FF200 = .ok (.ldint true 0 true 511) := by decide
theorem test_witness_BytesAsBitStrings :
    7 < 8 ∧ ([true, false, true, true, false, false, true, false] : BitString).length = 8 := by decide
theorem test_witness_StepRunsTheDecodedCommand :
    (withAccess (readyB6 8) (.regWrite 0 0x05000061)).bus = [.regWrite 0 0x05000061] ∧
      decode 0x05000061 = .ok (.enc 0x61) := by decide
theorem test_witness_IllegalWordFaults :
    (withAccess (readyB6 8) (.regWrite 0 0x02000100)).bus = [.regWrite 0 0x02000100] ∧
      decode 0x02000100 = .error .reservedBits ∧ (readyB6 8).phase ≠ .fault := by decide
theorem test_witness_IdleKeepsAllState : (readyB6 8).bus = [] := by decide
/-- Every clause: CMD, the seven registers, the first and the last reserved offset. -/
theorem test_witness_RegisterReads :
    ∀ off ∈ ([0x00, 0x04, 0x08, 0x0C, 0x10, 0x14, 0x18, 0x1C, 0x20, 0xFC] : List (BitVec 8)),
      (withAccess faulted (.regRead off)).bus = [.regRead off] ∧ off.toNat % 4 = 0 := by decide
theorem test_witness_StatusLayout :
    (encB6 0x40 3 8).phase = .enc ∧ (encB6 0x40 3 8).accn = 3 ∧ (encB6 0x40 3 8).holdv = false ∧
      (holding (readyB6 8) 0x4D 5).phase = .dec ∧ (holding (readyB6 8) 0x4D 5).accn = 0 ∧
      (holding (readyB6 8) 0x4D 5).holdv = true := by decide
theorem test_witness_OtherRegisterWritesIgnored :
    ∀ off ∈ ([0x04, 0x1C, 0x20, 0xFC] : List (BitVec 8)),
      (withAccess faulted (.regWrite off 7)).bus = [.regWrite off 7] ∧ off.toNat % 4 = 0 ∧ off ≠ 0 := by decide
theorem test_witness_MisalignedAccessRefused :
    ∀ off ∈ ([1, 3, 0xFF] : List (BitVec 8)), off.toNat % 4 ≠ 0 ∧
      (withAccess faulted (.regWrite off 7)).bus = [.regWrite off 7] ∧
      (withAccess faulted (.regRead off)).bus = [.regRead off] := by decide

/-- A finished encode session with one byte. -/
def doneB6 : State := { readyB6 8 with phase := .doneE, ocnt := 1, out := [(0, 0x4D)] }

/-- The last byte of a result, the first address above it, and another phase. -/
theorem test_witness_OutReads :
    (doneB6.phase = .doneE ∧ 0 < doneB6.ocnt.toNat ∧ Memory.read doneB6.out 0 = some 0x4D) ∧
      ¬ ((doneB6.phase = .doneE ∨ doneB6.phase = .doneD) ∧ 1 < doneB6.ocnt.toNat) ∧
      ¬ ((faulted.phase = .doneE ∨ faulted.phase = .doneD) ∧ 0 < faulted.ocnt.toNat) ∧
      (withAccess doneB6 (.outRead 0)).bus = [.outRead 0] := by decide
theorem test_witness_RegisterBytesLittleEndian : (0x0C : BitVec 8).toNat % 4 = 0 ∧ 3 < 4 := by decide
theorem test_witness_ResetAccess : (withAccess faulted .reset).bus = [.reset] := by decide
/-- The last record there is room for. -/
theorem test_witness_LdleafAppends :
    ({ loaded [] 8 with nnodes := 510 } : State).phase = .load ∧
      ({ loaded [] 8 with nnodes := 510 } : State).nnodes.toNat < 511 := by decide
theorem test_witness_LdintAppends :
    ({ loaded [] 8 with nnodes := 510 } : State).phase = .load ∧
      ({ loaded [] 8 with nnodes := 510 } : State).nnodes.toNat < 511 ∧
      (true = false → (511 : NodeIndex) = 0) ∧ (false = false → (0 : NodeIndex) = 0) := by decide
theorem test_witness_LdintAbsentChildIndex :
    (false = false ∧ (1 : NodeIndex) ≠ 0) ∧ (loaded [] 8).phase ≠ .fault ∧ faulted.phase = .fault := by decide
theorem test_witness_LoadIntoFullMemory :
    ({ loaded [] 8 with nnodes := 511 } : State).phase = .load ∧
      ({ loaded [] 8 with nnodes := 511 } : State).nnodes.toNat = 511 ∧
      (Instr.ldint true 1 true 2).wf = true := by decide
/-- The three-leaf tree and the empty tree. -/
theorem test_witness_BuildCompletes :
    (loaded recordsB6 8).phase = .load ∧
      treeWF (loaded recordsB6 8).nnodes.toNat (loaded recordsB6 8).nodeAt = true ∧
      (loaded [] 8).phase = .load ∧ treeWF (loaded [] 8).nnodes.toNat (loaded [] 8).nodeAt = true := by decide
/-- Vector B9: a right child that was not loaded. -/
theorem test_witness_BuildRefusesOtherTrees :
    (loaded [.int true 1 true 2, .leaf 1] 8).phase = .load ∧
      treeWF (loaded [.int true 1 true 2, .leaf 1] 8).nnodes.toNat (loaded [.int true 1 true 2, .leaf 1] 8).nodeAt =
        false := by decide
/-- The path "10" of the leaf 0x62 of the three-leaf tree, and a value without a leaf. -/
theorem test_witness_BuiltCodesArePaths :
    (loaded recordsB6 8).nodeAt 3 = .leaf 0x62 ∧
      RootPath (loaded recordsB6 8).nnodes.toNat (loaded recordsB6 8).nodeAt 3 [true, false] ∧
      ∀ j, j < (loaded recordsB6 8).nnodes.toNat → (loaded recordsB6 8).nodeAt j ≠ .leaf 0 :=
  ⟨by decide, .slot 2 [true] false 3 (.slot 0 [] true 2 .root (by decide) (by decide)) (by decide) (by decide),
    by decide⟩
theorem test_witness_BuiltCodesPrefixFree :
    ∃ s t : State, s.Inv ∧ exec .build s = .next t ∧ t.phase = .ready ∧
      t.codeAt 0x61 = some ⟨[false]⟩ ∧ t.codeAt 0x62 = some ⟨[true, false]⟩ :=
  ⟨loaded recordsB6 8, readyB6 8, test_inv_loadedB6, by rfl, by decide, by decide, by decide⟩
theorem test_witness_BuiltCodesBounded :
    ∃ s t : State, s.Inv ∧ exec .build s = .next t ∧ t.phase = .ready ∧ t.codeAt 0x63 = some ⟨[true, true]⟩ :=
  ⟨loaded recordsB6 8, readyB6 8, test_inv_loadedB6, by rfl, by decide, by decide⟩
/-- OUT exactly full after the command. -/
theorem test_witness_EncAppendsTheCode :
    (encB6 0x4C 7 1).phase = .enc ∧ (encB6 0x4C 7 1).codeAt 0x62 = some ⟨[true, false]⟩ ∧
      (encB6 0x4C 7 1).ocnt.toNat + ((encB6 0x4C 7 1).accn.toNat + [true, false].length) / 8 ≤
        (encB6 0x4C 7 1).outCap.toNat := by decide
theorem test_witness_EncFaults :
    (encB6 0x4C 7 0).phase = .enc ∧ (encB6 0x4C 7 0).codeAt 0x60 = none ∧
      (encB6 0x4C 7 0).codeAt 0x62 = some ⟨[true, false]⟩ ∧
      (encB6 0x4C 7 0).outCap.toNat <
        (encB6 0x4C 7 0).ocnt.toNat + ((encB6 0x4C 7 0).accn.toNat + [true, false].length) / 8 := by decide
/-- With and without pending bits. -/
theorem test_witness_FlushPadsAndEnds :
    (encB6 0x60 3 1).phase = .enc ∧ (encB6 0x60 3 1).ocnt.toNat < (encB6 0x60 3 1).outCap.toNat ∧
      (readyB6 8).phase = .ready ∧ (readyB6 8).accn = 0 := by decide
theorem test_witness_FlushOverflows :
    ({ encB6 0xC0 2 1 with ocnt := 1 } : State).phase = .enc ∧ ({ encB6 0xC0 2 1 with ocnt := 1 } : State).accn ≠ 0 ∧
      ({ encB6 0xC0 2 1 with ocnt := 1 } : State).outCap.toNat ≤
        ({ encB6 0xC0 2 1 with ocnt := 1 } : State).ocnt.toNat := by decide
theorem test_witness_SetpadChoosesDecode : (readyB2 8).phase = .ready := by decide
theorem test_witness_DecbHoldsTheFirstByte : (readyB2 8).phase = .ready ∧ (readyB2 8).holdv = false := by decide
/-- P3 decode step 10: "01001101" decodes to five symbols that exactly fit, and stops at node 2. -/
theorem test_witness_DecbDecodesTheHeldByte :
    (holding (readyB6 5) 0x4D 5).phase = .dec ∧ (holding (readyB6 5) 0x4D 5).holdv = true ∧
      decodeFrom (holding (readyB6 5) 0x4D 5).nnodes.toNat (holding (readyB6 5) 0x4D 5).nodeAt (bits8 0x4D) 0 =
        some ([0x61, 0x62, 0x61, 0x63, 0x61], 2) ∧
      (holding (readyB6 5) 0x4D 5).ocnt.toNat + 5 ≤ (holding (readyB6 5) 0x4D 5).outCap.toNat := by decide
/-- X18: the fifth of eight symbols overflows. -/
theorem test_witness_DecbFaults_overflow :
    (holding (readyB6 4) 0x00 0).phase = .dec ∧ (holding (readyB6 4) 0x00 0).holdv = true ∧
      (holding (readyB6 4) 0x00 0).ocnt.toNat ≤ (holding (readyB6 4) 0x00 0).outCap.toNat ∧
      decodeFrom (holding (readyB6 4) 0x00 0).nnodes.toNat (holding (readyB6 4) 0x00 0).nodeAt
          ((bits8 0x00).take 5) 0 = some ([0x61, 0x61, 0x61, 0x61, 0x61], 0) ∧
      (holding (readyB6 4) 0x00 0).outCap.toNat < (holding (readyB6 4) 0x00 0).ocnt.toNat + 5 := by decide

/-- The symbols of the first bits of a byte fit in an OUT of eight bytes. -/
theorem symbols_fit {n : Nat} {node : Nat → NodeRec} {b : Byte} {k c c' : Nat} {symbols : List Byte}
    (h : decodeFrom n node ((bits8 b).take k) c = some (symbols, c')) : 0 + symbols.length ≤ 8 := by
  have := decodeFrom_length h
  simp only [List.length_take] at this
  have h8 : (bits8 b).length = 8 := by simp [bits8]
  omega

/-- P4: a '1' at the root of the special shape, with room for everything before it. -/
theorem test_witness_DecbFaults_traversal :
    (holding (readyB2 8) 0x10 3).phase = .dec ∧ (holding (readyB2 8) 0x10 3).holdv = true ∧
      (holding (readyB2 8) 0x10 3).ocnt.toNat ≤ (holding (readyB2 8) 0x10 3).outCap.toNat ∧
      decodeFrom (holding (readyB2 8) 0x10 3).nnodes.toNat (holding (readyB2 8) 0x10 3).nodeAt
          (bits8 (holding (readyB2 8) 0x10 3).hold) (holding (readyB2 8) 0x10 3).cur.toNat = none ∧
      ∀ k symbols c, decodeFrom (holding (readyB2 8) 0x10 3).nnodes.toNat (holding (readyB2 8) 0x10 3).nodeAt
          ((bits8 (holding (readyB2 8) 0x10 3).hold).take k) (holding (readyB2 8) 0x10 3).cur.toNat =
            some (symbols, c) →
        (holding (readyB2 8) 0x10 3).ocnt.toNat + symbols.length ≤ (holding (readyB2 8) 0x10 3).outCap.toNat :=
  ⟨by decide, by decide, by decide, by decide, fun _ _ _ h => symbols_fit h⟩
theorem test_witness_DecendOfEmptyPayload :
    (readyB6 8).phase = .ready ∧ (readyB6 8).holdv = false ∧ (readyB6 8).pad = 0 ∧ (readyB6 8).cur = 0 := by decide
/-- P3 decode step 11, from the root: "011" of 0x60 is 0x61, 0x63; exactly two bytes of room. -/
theorem test_witness_DecendDecodesTheLastByte :
    (holding (readyB6 2) 0x60 5).phase = .dec ∧ (holding (readyB6 2) 0x60 5).holdv = true ∧
      decodeFrom (holding (readyB6 2) 0x60 5).nnodes.toNat (holding (readyB6 2) 0x60 5).nodeAt
          ((bits8 0x60).take (8 - 5)) 0 = some ([0x61, 0x63], 0) ∧
      (holding (readyB6 2) 0x60 5).ocnt.toNat + 2 ≤ (holding (readyB6 2) 0x60 5).outCap.toNat := by decide
/-- No byte held: padding declared; a walk not at the root (no run reaches this one). -/
theorem test_witness_DecendFaults_noByte :
    ({ readyB6 8 with phase := .dec, pad := 3 } : State).phase = .dec ∧
      ({ readyB6 8 with phase := .dec, pad := 3 } : State).holdv = false ∧
      ({ readyB6 8 with phase := .dec, pad := 3 } : State).pad ≠ 0 ∧
      ({ readyB6 8 with phase := .dec, cur := 2 } : State).holdv = false ∧
      ({ readyB6 8 with phase := .dec, cur := 2 } : State).pad = 0 ∧
      ({ readyB6 8 with phase := .dec, cur := 2 } : State).cur ≠ 0 := by decide
/-- X17: the fifth symbol overflows. -/
theorem test_witness_DecendFaults_overflow :
    (holding (readyB6 4) 0x00 0).phase = .dec ∧ (holding (readyB6 4) 0x00 0).holdv = true ∧
      (holding (readyB6 4) 0x00 0).ocnt.toNat ≤ (holding (readyB6 4) 0x00 0).outCap.toNat ∧ 5 ≤ 8 - 0 ∧
      decodeFrom (holding (readyB6 4) 0x00 0).nnodes.toNat (holding (readyB6 4) 0x00 0).nodeAt
          ((bits8 0x00).take 5) 0 = some ([0x61, 0x61, 0x61, 0x61, 0x61], 0) ∧
      (holding (readyB6 4) 0x00 0).outCap.toNat < (holding (readyB6 4) 0x00 0).ocnt.toNat + 5 := by decide
/-- P4 (no child) and X13 (inside a code), with room for everything before. -/
theorem test_witness_DecendFaults_walk :
    (∀ k symbols c, k ≤ 8 - 3 → decodeFrom 2 (holding (readyB2 8) 0x10 3).nodeAt ((bits8 0x10).take k) 0 =
        some (symbols, c) → 0 + symbols.length ≤ 8) ∧
      decodeFrom 2 (holding (readyB2 8) 0x10 3).nodeAt ((bits8 0x10).take (8 - 3)) 0 = none ∧
      (∀ k symbols c, k ≤ 8 - 7 → decodeFrom 5 (holding (readyB6 8) 0x80 7).nodeAt ((bits8 0x80).take k) 0 =
        some (symbols, c) → 0 + symbols.length ≤ 8) ∧
      decodeFrom 5 (holding (readyB6 8) 0x80 7).nodeAt ((bits8 0x80).take (8 - 7)) 0 = some ([], 2) :=
  ⟨fun _ _ _ _ h => symbols_fit h, by decide, fun _ _ _ _ h => symbols_fit h, by decide⟩
/-- X5. -/
theorem test_witness_BareLeafRootDoesNotDecode :
    (holding (readyB3 8) 0x00 6).phase = .dec ∧ (holding (readyB3 8) 0x00 6).holdv = true ∧
      (holding (readyB3 8) 0x00 6).cur = 0 ∧ ((holding (readyB3 8) 0x00 6).nodeAt 0).isLeaf = true := by decide
theorem test_witness_WrongPhaseFaults :
    (Instr.build).wf = true ∧ (readyB6 8).phase ≠ .fault ∧ (readyB6 8).phase ∉ acceptedIn .build := by decide
/-- Accepted, not accepted, ignored. -/
theorem test_witness_PhaseTable :
    ((readyB6 16).Inv ∧ (readyB6 16).phase ∈ acceptedIn (.enc 0x61) ∧ (readyB6 16).phase ∉ acceptedIn .build) ∧
      faulted.Inv ∧ faulted.phase = .fault ∧ Instr.build ≠ .init :=
  ⟨⟨test_inv_readyB6, by decide, by decide⟩, test_inv_faulted, by decide, by decide⟩
theorem test_witness_FaultEntryIsPrecise :
    (readyB6 8).phase ≠ .fault ∧ ∃ t, runWord 0x04000000 (readyB6 8) = .next t ∧ t.phase = .fault :=
  ⟨by decide, _, rfl, by decide⟩
theorem test_witness_FaultIsSticky :
    faulted.phase = .fault ∧ (0x01000001 : Word) ≠ 0x01000000 ∧ regAligned 0xFC = true := by decide
theorem test_witness_OnlyInitOrResetLeavesFault :
    faulted.phase = .fault ∧ ∃ t, step (withAccess faulted (.regWrite 0 0x01000000)) = .next t ∧ t.phase ≠ .fault :=
  ⟨by decide, _, rfl, by decide⟩
theorem test_witness_StepKeepsInv :
    ∃ s t : State, s.Inv ∧ step s = .next t := ⟨readyB6 16, readyB6 16, test_inv_readyB6, rfl⟩
theorem test_witness_StepKeepsMemoriesCanonical :
    (Memory.wf (encB6 0x4C 7 8).node ∧ Memory.wf (encB6 0x4C 7 8).code ∧ Memory.wf (encB6 0x4C 7 8).out) ∧
      ∃ t, step (withAccess (encB6 0x4C 7 8) (.regWrite 0 0x05000062)) = .next t ∧ t.out = [(0, 0x4D)] :=
  ⟨by decide, _, rfl, by decide⟩
/-- Commands that change elements: a faulting BUILD (`err`, `errinfo`), FLUSH (`pad`, `ocnt`, `acc`, OUT), DECB (`icnt`, `hold`), LDLEAF, BUILD. -/
theorem test_witness_OnlyTheNamedWriters :
    ofNext (exec .build (readyB6 8)) faultFields = some (.fault, .seq, 0x04000000) ∧ (readyB6 8).phase ≠ .fault ∧
      ofNext (exec .flush (encB6 0x60 3 8)) (fun t => (t.out, t.pad, t.ocnt, t.acc)) = some ([(0, 0x60)], 5, 1, 0) ∧
      ofNext (exec (.decb 1) (readyB6 8)) (fun t => (t.icnt, t.hold)) = some (1, 1) ∧
      ofNext (exec (.ldleaf 9) (loaded [] 8)) (fun t => (t.node, t.nnodes)) = some ([(0, .leaf 9)], 1) ∧
      ofNext (exec .build (loaded recordsB2 8)) State.code = some [(7, ⟨[false]⟩)] := by decide
theorem test_witness_OutIsAppendOnly :
    (encB6 0x4C 7 8).ocnt.toNat ≤ (encB6 0x4C 7 8).outCap.toNat ∧
      ∃ t, step (withAccess (encB6 0x4C 7 8) (.regWrite 0 0x05000062)) = .next t ∧ t.ocnt = 1 :=
  ⟨by decide, _, rfl, by decide⟩
theorem test_witness_TreeFixedAfterBuild :
    (encB6 0x4C 7 8).phase ≠ .load ∧
      ∃ t, step (withAccess (encB6 0x4C 7 8) (.regWrite 0 0x05000062)) = .next t ∧ t.ocnt = 1 :=
  ⟨by decide, _, rfl, by decide⟩
/-- Two states that differ in a record above `nnodes` and in a byte above `ocnt`. -/
theorem test_witness_UnspecifiedContentsDoNotFlow :
    (loaded [] 8).SameDefined { loaded [] 8 with node := [(3, .leaf 1)], out := [(5, 0xAA)] } ∧
      ∃ t, step (withAccess (loaded [] 8) (.outRead 5)) = .next t :=
  ⟨⟨rfl, by decide, by decide⟩, _, rfl⟩
theorem test_witness_EncodeSessionPacks :
    (readyB6 16).Inv ∧ (readyB6 16).phase = .ready ∧
      (∀ v, v ∈ [0x61, 0x62, 0x63] → (readyB6 16).codeValid v = true) ∧
      (((readyB6 16).stream [0x61, 0x62, 0x63]).length + 7) / 8 ≤ (readyB6 16).outCap.toNat :=
  ⟨test_inv_readyB6, by decide, by decide, by decide⟩
/-- X21: the fifth symbol of "00000000" overflows. (SETPAD 0 and no SETPAD have the same payload bits.) -/
theorem test_witness_DecodeSessionDecodes_overflow :
    (readyB2 4).Inv ∧ (readyB2 4).phase = .ready ∧
      decodeFrom (readyB2 4).nnodes.toNat (readyB2 4).nodeAt ((unpack [0x00] 0).take 5) 0 = some ([7, 7, 7, 7, 7], 0) ∧
      (readyB2 4).outCap.toNat < [7, 7, 7, 7, 7].length :=
  ⟨test_inv_readyB2, by decide, by decide, by decide⟩

/-- The symbols of a short payload fit in an OUT of sixteen bytes. -/
theorem session_fits {n : Nat} {node : Nat → NodeRec} {bits : BitString} (hb : bits.length ≤ 16) {k c c' : Nat}
    {symbols : List Byte} (h : decodeFrom n node (bits.take k) c = some (symbols, c')) : symbols.length ≤ 16 := by
  have := decodeFrom_length h
  simp only [List.length_take] at this
  omega

/-- X14 (no SETPAD, inside a code) and P3 (SETPAD 5, the whole payload), with an OUT of sixteen bytes. -/
theorem test_witness_DecodeSessionDecodes :
    (readyB6 16).Inv ∧
      (∀ k symbols c, decodeFrom (readyB6 16).nnodes.toNat (readyB6 16).nodeAt ((unpack [0x4D, 0x60] 5).take k) 0 =
        some (symbols, c) → symbols.length ≤ (readyB6 16).outCap.toNat) ∧
      decodeFrom (readyB6 16).nnodes.toNat (readyB6 16).nodeAt (unpack [0x4D, 0x60] 5) 0 =
        some ([0x61, 0x62, 0x61, 0x63, 0x61, 0x62, 0x63], 0) ∧
      (∀ k symbols c, decodeFrom (readyB6 16).nnodes.toNat (readyB6 16).nodeAt ((unpack [0x4D] 0).take k) 0 =
        some (symbols, c) → symbols.length ≤ (readyB6 16).outCap.toNat) ∧
      decodeFrom (readyB6 16).nnodes.toNat (readyB6 16).nodeAt (unpack [0x4D] 0) 0 =
        some ([0x61, 0x62, 0x61, 0x63, 0x61], 2) :=
  ⟨test_inv_readyB6, fun _ _ _ h => session_fits (by decide) h, by decide,
    fun _ _ _ h => session_fits (by decide) h, by decide⟩

/-- The special shape with an OUT of sixteen bytes meets the invariant. -/
theorem test_inv_readyB2_16 : (readyB2 16).Inv := by
  constructor <;> decide

/-- X20's payload, with room for every symbol before the bit without a child. -/
theorem test_witness_DecodeSessionDecodes_traversal :
    (readyB2 16).Inv ∧ (readyB2 16).phase = .ready ∧
      (∀ k symbols c, decodeFrom (readyB2 16).nnodes.toNat (readyB2 16).nodeAt ((unpack [0x08] 0).take k) 0 =
        some (symbols, c) → symbols.length ≤ (readyB2 16).outCap.toNat) ∧
      decodeFrom (readyB2 16).nnodes.toNat (readyB2 16).nodeAt (unpack [0x08] 0) 0 = none :=
  ⟨test_inv_readyB2_16, by decide, fun _ _ _ h => session_fits (by decide) h, by decide⟩
/-- Padding without a byte (X3), and the padding and payloads of the other clauses: SETPAD given, and omitted. -/
theorem test_witness_DecodeSessionDecodes_padding :
    (some (3 : BitVec 3)).getD 0 ≠ 0 ∧ ((none : Option (BitVec 3)).getD 0 = 0) ∧ (some (5 : BitVec 3)).getD 0 = 5 ∧
      ([0x4D] : List Byte) ≠ [] := by decide
/-- X14: without SETPAD the session ends inside a code. -/
theorem test_decode_session_without_setpad :
    ofNext (execAll [.decb 0x4D, .decend] (readyB6 16)) faultFields = some (.fault, .trunc, 0x09000000) := by decide
theorem test_witness_RoundTrip :
    (readyB6 16).Inv ∧ (readyB6 16).phase = .ready ∧ (readyB6 16).nnodes = (readyB6 16).nnodes ∧
      (∀ v, v ∈ [0x61, 0x62] → (readyB6 16).codeValid v = true) ∧ ((readyB6 16).nodeAt 0).isLeaf = false ∧
      (((readyB6 16).stream [0x61, 0x62]).length + 7) / 8 ≤ (readyB6 16).outCap.toNat ∧
      [0x61, 0x62].length ≤ (readyB6 16).outCap.toNat :=
  ⟨test_inv_readyB6, by decide, rfl, by decide, by decide, by decide, by decide⟩

end Sys2Proof.Tests
end

section
/-! SUPPORT. Proofs of the scope family (00_scope): bytes as bit strings (R9), the capacity of OUT (R6), and that every
word has a next state (R5). -/

namespace Sys2Proof.Machine

open Sys2Proof

/-! ### Bytes and bit strings (R9) -/

@[simp] theorem bits8_length (b : Byte) : (bits8 b).length = 8 := by simp [bits8]

theorem bits8_getElem? (b : Byte) {k : Nat} (hk : k < 8) : (bits8 b)[k]? = some (b.getLsbD (7 - k)) := by
  simp [bits8, hk]

@[simp] theorem bitsToNat_nil : bitsToNat [] = 0 := rfl

/-- The last bit of a string is the least significant one. -/
@[simp] theorem bitsToNat_concat (s : BitString) (b : Bool) : bitsToNat (s ++ [b]) = 2 * bitsToNat s + b.toNat := by
  simp [bitsToNat]

/-- Bit `k` of the number a bit string writes is its `k`-th bit from the end; above the string every bit is 0. -/
theorem testBit_bitsToNat (s : BitString) (k : Nat) : (bitsToNat s).testBit k = s.reverse[k]?.getD false := by
  induction s using List.reverseRecOn generalizing k with
  | nil => simp
  | append_singleton s b ih =>
    rw [bitsToNat_concat, List.reverse_concat]
    cases k with
    | zero => cases b <;> simp
    | succ k =>
      have hhalf : (2 * bitsToNat s + b.toNat) / 2 = bitsToNat s := by have := b.toNat_lt; omega
      rw [Nat.testBit_succ, hhalf, ih, List.getElem?_cons_succ]

theorem byte8_getLsbD (s : BitString) {k : Nat} (hk : k < 8) : (byte8 s).getLsbD k = s.reverse[k]?.getD false := by
  rw [byte8, BitVec.getLsbD_ofNat, testBit_bitsToNat, decide_eq_true hk, Bool.true_and]

@[simp] theorem byte8_bits8 (b : Byte) : byte8 (bits8 b) = b := by
  refine BitVec.eq_of_getLsbD_eq fun k hk => ?_
  rw [byte8_getLsbD _ hk, List.getElem?_reverse (by simpa using hk), bits8_length, bits8_getElem? b (by omega),
    Option.getD_some]
  congr 1
  omega

theorem bits8_byte8 {s : BitString} (hs : s.length = 8) : bits8 (byte8 s) = s := by
  refine List.ext_getElem?' fun k hk => ?_
  have hk : k < 8 := by simpa [hs] using hk
  have hrev : s.reverse[7 - k]? = s[k]? := by
    rw [List.getElem?_reverse (by omega)]
    congr 1
    omega
  rw [bits8_getElem? _ hk, byte8_getLsbD s (by omega), hrev, List.getElem?_eq_getElem (by omega), Option.getD_some]

/-- Settles O6: a byte and its bit string agree bit by bit. -/
theorem bytesAsBitStrings : Obligations.BytesAsBitStrings := by
  unfold Obligations.BytesAsBitStrings
  exact ⟨fun b _ hk => bits8_getElem? b hk, fun b => ⟨bits8_length b, byte8_bits8 b⟩, fun _ hs => bits8_byte8 hs,
    by decide, by decide⟩

/-! ### The access a step serves (R35, R38, R41) -/

/-- The alignment test is divisibility by 4. -/
theorem regAligned_iff (off : BitVec 8) : regAligned off = true ↔ off.toNat % 4 = 0 := by
  have hmod : (off &&& 3).toNat = off.toNat % 4 := Nat.and_two_pow_sub_one_eq_mod off.toNat 2
  rw [regAligned, beq_iff_eq, ← BitVec.toNat_inj, hmod]
  exact Iff.rfl

theorem State.takeAccess_of_bus {s : State} {a : HostAccess} {rest : List HostAccess} (h : s.bus = a :: rest) :
    s.takeAccess = { s with bus := rest, reply := .none } := by
  rw [State.takeAccess, h, List.tail_cons]

theorem step_of_bus_nil {s : State} (h : s.bus = []) : step s = .next s := by
  rw [step, serveNext, h]

theorem step_of_bus_cons {s : State} {a : HostAccess} {rest : List HostAccess} (h : s.bus = a :: rest) :
    step s = serve a { s with bus := rest, reply := .none } := by
  rw [← State.takeAccess_of_bus h, step, serveNext, h]

theorem serve_command (w : Word) (s : State) : serve (.regWrite 0 w) s = runWord w s := rfl

theorem runWord_of_decode {w : Word} {i : Instr} (h : decode w = .ok i) (s : State) : runWord w s = exec i s := by
  rw [runWord, h]

/-- Settles O7: the step serves the write to CMD, which runs the command the word decodes to. -/
theorem stepRunsTheDecodedCommand : Obligations.StepRunsTheDecodedCommand := by
  unfold Obligations.StepRunsTheDecodedCommand
  intro s w i rest hbus hdecode
  rw [step_of_bus_cons hbus, serve_command, runWord_of_decode hdecode]

/-! ### Every word has a next state (R5) -/

theorem raiseFault_answers (c : ErrCode) (w : Word) (s : State) : ∃ t, raiseFault c w s = .next t := by
  by_cases hf : s.phase = .fault
  · exact ⟨s, raiseFault_in_fault hf c w⟩
  · exact ⟨s.enterFault c w, raiseFault_of_ne hf c w⟩

/-- A term that no word decodes to takes the fault of its word (R53, R63). -/
theorem exec_of_not_wf {i : Instr} (hw : ¬ i.wf = true) (s : State) : exec i s = raiseFault .illcmd (encode i) s := by
  cases i with
  | ldint hasL left hasR right => exact if_neg hw
  | _ => exact absurd rfl hw

/-- INIT opens a session; every other command runs in the command frame, or takes the fault of its word. -/
theorem exec_answers (i : Instr) (s : State) : ∃ t, exec i s = .next t := by
  by_cases hi : i = .init
  · subst hi
    exact ⟨s.openSession, rfl⟩
  · by_cases hw : i.wf = true
    · rw [exec_eq_runCommand hi hw]
      exact runCommand_answers s _ _ _
    · rw [exec_of_not_wf hw]
      exact raiseFault_answers _ _ s

theorem runWord_answers (w : Word) (s : State) : ∃ t, runWord w s = .next t := by
  unfold runWord
  split
  · exact exec_answers _ s
  · exact raiseFault_answers _ w s

theorem writeReg_answers (off : BitVec 8) (w : Word) (s : State) : ∃ t, writeReg off w s = .next t := by
  unfold writeReg
  split
  · exact runWord_answers w s
  · exact ⟨s, rfl⟩

/-- An access is answered, or it is a REG access at a misaligned offset and refused (R38). -/
theorem serve_answers_or_misaligned (a : HostAccess) (s : State) :
    (∃ t, serve a s = .next t) ∨
      ∃ off : BitVec 8, off.toNat % 4 ≠ 0 ∧ serve a s = .refused (.misalignedRegAccess off) := by
  cases a with
  | regWrite off w =>
    by_cases ha : regAligned off = true
    · rw [serve, if_pos ha]
      exact .inl (writeReg_answers off w s)
    · exact .inr ⟨off, mt (regAligned_iff off).mpr ha, if_neg ha⟩
  | regRead off =>
    by_cases ha : regAligned off = true
    · exact .inl ⟨_, if_pos ha⟩
    · exact .inr ⟨off, mt (regAligned_iff off).mpr ha, if_neg ha⟩
  | outRead addr => exact .inl ⟨s.readOut addr, rfl⟩
  | reset => exact .inl ⟨s.openSession, rfl⟩

/-- Settles O47: words by the cases of the decoder and of the command, steps by the access served. -/
theorem everyWordHasASuccessor : Obligations.EveryWordHasASuccessor := by
  unfold Obligations.EveryWordHasASuccessor
  refine ⟨runWord_answers, fun s => ?_⟩
  cases hbus : s.bus with
  | nil => exact .inl ⟨s, step_of_bus_nil hbus⟩
  | cons a rest =>
    rw [step_of_bus_cons hbus]
    exact serve_answers_or_misaligned a _

/-! ### The capacity of OUT (R6) -/

/-- At reset `OUT_CAP` is one more than the open constant: adding 1 to it does not wrap. -/
theorem State.reset_outCap_toNat : State.reset.outCap.toNat = Config.outCapPred.val + 1 :=
  Nat.mod_eq_of_lt (by have := Config.outCapPred.isLt; omega)

/-- Settles O18: the lower bound is that the capacity is a successor, the upper one is its width. -/
theorem resetOutCapInRange : Obligations.ResetOutCapInRange := by
  unfold Obligations.ResetOutCapInRange
  rw [State.reset_outCap_toNat]
  have := Config.outCapPred.isLt
  omega

end Sys2Proof.Machine
end

section
/-! SUPPORT. What the body of each command can do, said once: the state it answers, and the faults it raises. -/

namespace Sys2Proof.Machine

open Sys2Proof

/-! ### Loads and BUILD (40_tree_and_codes) -/

theorem loadRecord_of_room {s : State} (h : s.nnodes.toNat < Config.nodeCap) (r : NodeRec) :
    loadRecord r s = .ok (s.pushNode r) := if_pos h

theorem loadRecord_of_full {s : State} (h : ¬ s.nnodes.toNat < Config.nodeCap) (r : NodeRec) :
    loadRecord r s = .error .treefull := if_neg h

theorem loadRecord_ok {r : NodeRec} {s t : State} (h : loadRecord r s = .ok t) :
    s.nnodes.toNat < Config.nodeCap ∧ t = s.pushNode r := by
  by_cases hroom : s.nnodes.toNat < Config.nodeCap
  · rw [loadRecord_of_room hroom] at h
    exact ⟨hroom, (Except.ok.inj h).symm⟩
  · rw [loadRecord_of_full hroom] at h
    cases h

theorem loadRecord_error {r : NodeRec} {s : State} {c : ErrCode} (h : loadRecord r s = .error c) : c = .treefull := by
  by_cases hroom : s.nnodes.toNat < Config.nodeCap
  · rw [loadRecord_of_room hroom] at h
    cases h
  · rw [loadRecord_of_full hroom] at h
    exact (Except.error.inj h).symm

theorem buildBody_ok {s t : State} (h : buildBody s = .ok t) :
    treeWF s.nnodes.toNat s.nodeAt = true ∧
      t = { s with code := buildCodes s.nnodes.toNat s.nodeAt s.code, phase := .ready } := by
  simp only [buildBody] at h
  split at h
  · rename_i hwf; exact ⟨hwf, (Except.ok.inj h).symm⟩
  · cases h

theorem buildBody_error {s : State} {c : ErrCode} (h : buildBody s = .error c) : c = .tree := by
  simp only [buildBody] at h
  split at h
  · cases h
  · exact (Except.error.inj h).symm

/-! ### ENC and FLUSH (41_encode_pack) -/

/-- What an accepted ENC makes of the bits now pending: their whole bytes go to OUT, the rest stays pending (R73). -/
def State.packBits (s : State) (bits : BitString) : State :=
  { s.putOuts (wholeBytes (bits.length / 8) bits) with
    acc := leftAligned (bits.drop (8 * (bits.length / 8)))
    accn := BitVec.ofNat 3 (bits.drop (8 * (bits.length / 8))).length
    icnt := s.icnt + 1
    phase := .enc }

/-- The string is cut into whole bytes and a rest of fewer than 8 bits. -/
theorem length_drop_wholeBytes (bits : BitString) :
    (bits.drop (8 * (bits.length / 8))).length = bits.length % 8 := by
  rw [List.length_drop]; omega

@[simp] theorem wholeBytes_length (nb : Nat) (bits : BitString) : (wholeBytes nb bits).length = nb := by
  simp [wholeBytes]

/-! `packBits` changes `phase`, `ocnt`, `icnt`, `acc`, `accn` and OUT. -/

@[simp] theorem State.packBits_phase (s : State) (bits : BitString) : (s.packBits bits).phase = .enc := rfl
@[simp] theorem State.packBits_icnt (s : State) (bits : BitString) : (s.packBits bits).icnt = s.icnt + 1 := rfl
@[simp] theorem State.packBits_acc (s : State) (bits : BitString) :
    (s.packBits bits).acc = leftAligned (bits.drop (8 * (bits.length / 8))) := rfl
@[simp] theorem State.packBits_ocnt (s : State) (bits : BitString) :
    (s.packBits bits).ocnt = (s.putOuts (wholeBytes (bits.length / 8) bits)).ocnt := rfl
@[simp] theorem State.packBits_out (s : State) (bits : BitString) :
    (s.packBits bits).out = (s.putOuts (wholeBytes (bits.length / 8) bits)).out := rfl
@[simp] theorem State.packBits_err (s : State) (bits : BitString) : (s.packBits bits).err = s.err :=
  State.putOuts_err s _
@[simp] theorem State.packBits_errinfo (s : State) (bits : BitString) : (s.packBits bits).errinfo = s.errinfo :=
  State.putOuts_errinfo s _
@[simp] theorem State.packBits_pad (s : State) (bits : BitString) : (s.packBits bits).pad = s.pad :=
  State.putOuts_pad s _
@[simp] theorem State.packBits_nnodes (s : State) (bits : BitString) : (s.packBits bits).nnodes = s.nnodes :=
  State.putOuts_nnodes s _
@[simp] theorem State.packBits_hold (s : State) (bits : BitString) : (s.packBits bits).hold = s.hold :=
  State.putOuts_hold s _
@[simp] theorem State.packBits_holdv (s : State) (bits : BitString) : (s.packBits bits).holdv = s.holdv :=
  State.putOuts_holdv s _
@[simp] theorem State.packBits_cur (s : State) (bits : BitString) : (s.packBits bits).cur = s.cur :=
  State.putOuts_cur s _
@[simp] theorem State.packBits_node (s : State) (bits : BitString) : (s.packBits bits).node = s.node :=
  State.putOuts_node s _
@[simp] theorem State.packBits_code (s : State) (bits : BitString) : (s.packBits bits).code = s.code :=
  State.putOuts_code s _
@[simp] theorem State.packBits_outCap (s : State) (bits : BitString) : (s.packBits bits).outCap = s.outCap :=
  State.putOuts_outCap s _
@[simp] theorem State.packBits_bus (s : State) (bits : BitString) : (s.packBits bits).bus = s.bus :=
  State.putOuts_bus s _
@[simp] theorem State.packBits_reply (s : State) (bits : BitString) : (s.packBits bits).reply = s.reply :=
  State.putOuts_reply s _
@[simp] theorem State.packBits_draws (s : State) (bits : BitString) : (s.packBits bits).draws = s.draws :=
  State.putOuts_draws s _

theorem State.packBits_accn_toNat (s : State) (bits : BitString) : (s.packBits bits).accn.toNat = bits.length % 8 := by
  simp only [State.packBits, length_drop_wholeBytes, BitVec.toNat_ofNat]
  omega

theorem encBody_of_room {val : Byte} {s : State} {e : CodeEntry} (he : s.codeAt val = some e)
    (hroom : s.ocnt.toNat + (s.pending ++ e.bits).length / 8 ≤ s.outCap.toNat) :
    encBody val s = .ok (s.packBits (s.pending ++ e.bits)) := by
  simp only [encBody, he, (State.roomFor_iff s _).mpr hroom, if_true]
  rfl

theorem encBody_ok {val : Byte} {s t : State} (h : encBody val s = .ok t) :
    ∃ e, s.codeAt val = some e ∧ s.ocnt.toNat + (s.pending ++ e.bits).length / 8 ≤ s.outCap.toNat ∧
      t = s.packBits (s.pending ++ e.bits) := by
  simp only [encBody] at h
  split at h
  · cases h
  · rename_i e he
    split at h
    · rename_i hroom
      exact ⟨e, he, (State.roomFor_iff s _).mp hroom, (Except.ok.inj h).symm⟩
    · cases h

theorem encBody_error {val : Byte} {s : State} {c : ErrCode} (h : encBody val s = .error c) :
    c = .nocode ∨ c = .ovf := by
  simp only [encBody] at h
  split at h
  · exact .inl (Except.error.inj h).symm
  · split at h
    · cases h
    · exact .inr (Except.error.inj h).symm

theorem flushBody_of_idle {s : State} (h : s.accn = 0) :
    flushBody s = .ok { s with pad := 0, acc := 0, accn := 0, phase := .doneE } := if_pos h

theorem flushBody_of_room {s : State} (h : s.accn ≠ 0) (hroom : s.ocnt.toNat + 1 ≤ s.outCap.toNat) :
    flushBody s =
      .ok { s.putOut s.acc with pad := BitVec.ofNat 3 (8 - s.accn.toNat), acc := 0, accn := 0, phase := .doneE } := by
  rw [flushBody, if_neg h, if_pos ((State.roomFor_iff s 1).mpr hroom)]

theorem flushBody_ok {s t : State} (h : flushBody s = .ok t) :
    (s.accn = 0 ∧ t = { s with pad := 0, acc := 0, accn := 0, phase := .doneE }) ∨
    (s.accn ≠ 0 ∧ s.ocnt.toNat + 1 ≤ s.outCap.toNat ∧
      t = { s.putOut s.acc with pad := BitVec.ofNat 3 (8 - s.accn.toNat), acc := 0, accn := 0, phase := .doneE }) := by
  simp only [flushBody] at h
  split at h
  · rename_i hidle; exact .inl ⟨hidle, (Except.ok.inj h).symm⟩
  · rename_i hidle
    split at h
    · rename_i hroom; exact .inr ⟨hidle, (State.roomFor_iff s 1).mp hroom, (Except.ok.inj h).symm⟩
    · cases h

theorem flushBody_error {s : State} {c : ErrCode} (h : flushBody s = .error c) : s.accn ≠ 0 ∧ c = .ovf := by
  simp only [flushBody] at h
  split at h
  · cases h
  · rename_i hidle
    split at h
    · cases h
    · exact ⟨hidle, (Except.error.inj h).symm⟩

/-! ### The walk, DECB and DECEND (42_unpack_decode) -/

/-- The walk changes `cur`, `ocnt` and OUT only. -/
theorem walkBits_eq {bits : BitString} {s t : State} (h : walkBits bits s = .ok t) :
    ∃ c n o, t = { s with cur := c, ocnt := n, out := o } :=
  ⟨t.cur, t.ocnt, t.out, by conv_rhs => rw [← walkBits_frame h]⟩

theorem walkBit_error {b : Bool} {s : State} {c : ErrCode} (h : walkBit b s = .error c) :
    c = .traversal ∨ c = .ovf := by
  unfold walkBit at h
  split at h
  · exact .inl (Except.error.inj h).symm
  · split at h
    · exact .inl (Except.error.inj h).symm
    · split at h
      · split at h
        · cases h
        · exact .inr (Except.error.inj h).symm
      · cases h

theorem walkBits_error {bits : BitString} {s : State} {c : ErrCode} (h : walkBits bits s = .error c) :
    c = .traversal ∨ c = .ovf := by
  induction bits generalizing s with
  | nil => cases h
  | cons b rest ih =>
    unfold walkBits at h
    split at h
    · exact ih h
    · rename_i e he; cases h; exact walkBit_error he

/-- DECB walks the byte held, if there is one, and then holds the new one. -/
theorem decbBody_ok {val : Byte} {s t : State} (h : decbBody val s = .ok t) :
    ∃ bits u, walkBits bits s = .ok u ∧
      t = { u with hold := val, holdv := true, icnt := u.icnt + 1, phase := .dec } := by
  simp only [decbBody] at h
  split at h
  · rename_i u hu
    by_cases hv : s.holdv = true
    · rw [if_pos hv] at hu
      exact ⟨_, u, hu, (Except.ok.inj h).symm⟩
    · rw [if_neg hv] at hu
      exact ⟨[], u, hu, (Except.ok.inj h).symm⟩
  · cases h

theorem decbBody_error {val : Byte} {s : State} {c : ErrCode} (h : decbBody val s = .error c) :
    s.holdv = true ∧ (c = .traversal ∨ c = .ovf) := by
  simp only [decbBody] at h
  split at h
  · cases h
  · rename_i e he
    cases h
    split at he
    · rename_i hv; exact ⟨hv, walkBits_error he⟩
    · cases he

theorem endPayload_ok {s t : State} (h : endPayload s = .ok t) :
    s.cur = 0 ∧ t = { s with hold := 0, holdv := false, phase := .doneD } := by
  unfold endPayload at h
  split at h
  · rename_i hc; exact ⟨hc, (Except.ok.inj h).symm⟩
  · cases h

theorem endPayload_error {s : State} {c : ErrCode} (h : endPayload s = .error c) : s.cur ≠ 0 ∧ c = .trunc := by
  unfold endPayload at h
  split at h
  · cases h
  · rename_i hc; exact ⟨hc, (Except.error.inj h).symm⟩

/-- DECEND walks what the padding leaves of the byte held, if there is one, and must then stand at the root. -/
theorem decendBody_ok {s t : State} (h : decendBody s = .ok t) :
    ∃ bits u, walkBits bits s = .ok u ∧ u.cur = 0 ∧ t = { u with hold := 0, holdv := false, phase := .doneD } := by
  unfold decendBody at h
  split at h
  · split at h
    · rename_i u hu
      obtain ⟨hc, ht⟩ := endPayload_ok h
      exact ⟨_, u, hu, hc, ht⟩
    · cases h
  · split at h
    · obtain ⟨hc, ht⟩ := endPayload_ok h
      exact ⟨[], s, rfl, hc, ht⟩
    · cases h

/-- DECEND can fault only when a byte is held, padding is declared or the walk is inside a code. -/
theorem decendBody_error {s : State} {c : ErrCode} (h : decendBody s = .error c) :
    (s.holdv = true ∨ s.pad ≠ 0 ∨ s.cur ≠ 0) ∧ (c = .pad ∨ c = .traversal ∨ c = .ovf ∨ c = .trunc) := by
  unfold decendBody at h
  split at h
  · rename_i hv
    refine ⟨.inl hv, ?_⟩
    split at h
    · exact .inr (.inr (.inr (endPayload_error h).2))
    · rename_i e he
      cases h
      rcases walkBits_error he with rfl | rfl
      · exact .inr (.inl rfl)
      · exact .inr (.inr (.inl rfl))
  · split at h
    · obtain ⟨hc, rfl⟩ := endPayload_error h
      exact ⟨.inr (.inr hc), .inr (.inr (.inr rfl))⟩
    · rename_i hp
      exact ⟨.inr (.inl hp), .inl (Except.error.inj h).symm⟩

end Sys2Proof.Machine
end

section
/-! SUPPORT. Proofs of the state family (10_state): the register space (R25 to R27), the state that opens a session
(R32), and the full node memory (R18). -/

namespace Sys2Proof.Machine

open Sys2Proof

/-! ### The register space (R25 to R27) -/

/-- Two fields put together, as one number: the upper one has the lower one's width as its weight. -/
theorem toNat_append_eq {m n : Nat} (x : BitVec m) (y : BitVec n) : (x ++ y).toNat = x.toNat * 2 ^ n + y.toNat := by
  rw [BitVec.toNat_append, Nat.shiftLeft_eq, Nat.mul_comm, Nat.two_pow_add_eq_or_of_lt y.isLt]

/-- STATUS as one number (R26). -/
theorem State.status_toNat (s : State) :
    s.status.toNat = s.phase.code.toNat + 16 * s.accn.toNat + 128 * s.holdv.toNat := by
  simp only [State.status, toNat_append_eq, BitVec.toNat_ofBool, BitVec.toNat_ofNat]
  omega

/-- CMD and the reserved offsets read 0 (R27). -/
theorem State.regValue_eq_zero {off : BitVec 8} (h : off.toNat = 0 ∨ 0x20 ≤ off.toNat) (s : State) :
    s.regValue off = 0 := by
  have hne : ∀ m : BitVec 8, 1 ≤ m.toNat → m.toNat < 0x20 → off ≠ m := by
    rintro m h1 h2 rfl
    omega
  simp (disch := decide) only [State.regValue, hne, if_false]

theorem serve_regRead {off : BitVec 8} (h : off.toNat % 4 = 0) (s : State) :
    serve (.regRead off) s = .next { s with reply := .word (s.regValue off) } := if_pos ((regAligned_iff off).mpr h)

/-- Settles O10: the value read is `regValue`, offset by offset. -/
theorem registerReads : Obligations.RegisterReads := by
  unfold Obligations.RegisterReads
  intro s off rest hbus halign
  refine ⟨s.regValue off, by rw [step_of_bus_cons hbus, serve_regRead halign]; rfl,
    fun h => ?status, fun h => ?err, fun h => ?errinfo, fun h => ?pad, fun h => ?ocnt, fun h => ?icnt,
    fun h => ?nnodes, fun h => State.regValue_eq_zero h s⟩
  case status => obtain rfl : off = 0x04 := BitVec.eq_of_toNat_eq h; exact s.status_toNat
  case err => obtain rfl : off = 0x08 := BitVec.eq_of_toNat_eq h; exact BitVec.toNat_setWidth_of_le (show 4 ≤ 32 by decide)
  case errinfo => obtain rfl : off = 0x0C := BitVec.eq_of_toNat_eq h; rfl
  case pad => obtain rfl : off = 0x10 := BitVec.eq_of_toNat_eq h; exact BitVec.toNat_setWidth_of_le (show 3 ≤ 32 by decide)
  case ocnt => obtain rfl : off = 0x14 := BitVec.eq_of_toNat_eq h; rfl
  case icnt => obtain rfl : off = 0x18 := BitVec.eq_of_toNat_eq h; rfl
  case nnodes => obtain rfl : off = 0x1C := BitVec.eq_of_toNat_eq h; exact BitVec.toNat_setWidth_of_le (show 10 ≤ 32 by decide)

/-- The fields of STATUS, read back from its number. -/
theorem State.status_fields (s : State) :
    s.status.extractLsb' 0 3 = s.phase.code ∧ s.status.getLsbD 3 = false ∧ s.status.extractLsb' 4 3 = s.accn ∧
      s.status.getLsbD 7 = s.holdv ∧ s.status.extractLsb' 8 24 = 0 := by
  have hphase := s.phase.code.isLt
  have haccn := s.accn.isLt
  have hholdv := s.holdv.toNat_lt
  refine ⟨BitVec.eq_of_toNat_eq ?_, ?_, BitVec.eq_of_toNat_eq ?_, ?_, BitVec.eq_of_toNat_eq ?_⟩
  · rw [BitVec.extractLsb'_toNat, s.status_toNat, Nat.shiftRight_zero]
    omega
  · rw [BitVec.getLsbD, s.status_toNat, Nat.testBit_eq_decide_div_mod_eq, decide_eq_false_iff_not]
    omega
  · rw [BitVec.extractLsb'_toNat, s.status_toNat, Nat.shiftRight_eq_div_pow]
    omega
  · rw [BitVec.getLsbD, s.status_toNat, Nat.testBit_eq_decide_div_mod_eq]
    cases s.holdv with
    | false => rw [decide_eq_false_iff_not, Bool.toNat_false]; omega
    | true => rw [decide_eq_true_iff, Bool.toNat_true]; omega
  · rw [BitVec.extractLsb'_toNat, s.status_toNat, Nat.shiftRight_eq_div_pow]
    show _ = 0
    omega

/-- Settles O11: the fields of any state, and the examples are their fields put together. -/
theorem statusLayout : Obligations.StatusLayout := by
  unfold Obligations.StatusLayout
  refine ⟨State.status_fields, fun s hphase haccn hholdv => ?_, fun s hphase haccn hholdv => ?_, by decide⟩
  · rw [State.status, hphase, haccn, hholdv]
    decide
  · rw [State.status, hphase, haccn, hholdv]
    decide

/-- Settles O12: an aligned write off CMD is served and ignored. -/
theorem otherRegisterWritesIgnored : Obligations.OtherRegisterWritesIgnored := by
  unfold Obligations.OtherRegisterWritesIgnored
  intro s off w rest hbus halign hne
  rw [step_of_bus_cons hbus, serve, if_pos ((regAligned_iff off).mpr halign), writeReg, if_neg hne]

/-! ### The state that opens a session (R32) -/

theorem State.openSession_status (s : State) : s.openSession.status = 0 := by
  rw [← BitVec.toNat_inj, State.status_toNat]
  rfl

@[simp] theorem State.openSession_regValue (s : State) (off : BitVec 8) : s.openSession.regValue off = 0 := by
  unfold State.regValue
  rw [State.openSession_status]
  split_ifs <;> rfl

theorem State.openSession_fresh (s : State) : s.openSession.Fresh := by
  simp [State.Fresh, State.codeValid, State.codeAt]

/-- Reset leaves a session just opened. -/
theorem State.openSession_reset : State.reset.openSession = State.reset := rfl

/-- Settles O16: both states are a session just opened. -/
theorem resetAndInitState : Obligations.ResetAndInitState := by
  unfold Obligations.ResetAndInitState
  exact ⟨State.openSession_reset ▸ State.reset.openSession_fresh, fun s => ⟨s.openSession, rfl, s.openSession_fresh⟩⟩

/-! ### The full node memory (R18, R62, R63) -/

/-- Settles O23: the body of a load raises ERR_TREEFULL, and the command frame enters the fault. -/
theorem loadIntoFullMemory : Obligations.LoadIntoFullMemory := by
  unfold Obligations.LoadIntoFullMemory
  intro s hphase hfull
  have hf : s.phase ≠ .fault := by rw [hphase]; decide
  have hroom : ¬ s.nnodes.toNat < Config.nodeCap := by rw [hfull]; decide
  refine ⟨fun v => ?_, fun hasL left hasR right hwf => ?_⟩
  · exact runCommand_error hf (by simp [hphase]) (loadRecord_of_full hroom _) _
  · rw [exec_eq_runCommand (by simp) hwf]
    exact runCommand_error hf (by simp [hphase, acceptedIn]) (loadRecord_of_full hroom _) _

end Sys2Proof.Machine
end

section
/-! SUPPORT. Whole-machine rules of the memories (10_state R12, R22 to R24): every step keeps their canonical form, each
element has its writers only, and OUT is append-only. -/

namespace Sys2Proof.Machine

open Sys2Proof

/-! ### The canonical form of NODE, CODE and OUT -/

/-- The three memories list their addresses in rising order. -/
def State.Canonical (s : State) : Prop := Memory.wf s.node ∧ Memory.wf s.code ∧ Memory.wf s.out

theorem visit_leaf {node : Nat → NodeRec} {i : Nat} {v : Byte} (h : node i = .leaf v) (fuel : Nat) (path : BitString)
    (table : Memory CodeEntry) :
    visit node (fuel + 1) i path table = Memory.write table v.toNat { bits := leafCode path } := by
  rw [visit, h]

theorem visit_int {node : Nat → NodeRec} {i : Nat} {hasL hasR : Bool} {left right : NodeIndex}
    (h : node i = .int hasL left hasR right) (fuel : Nat) (path : BitString) (table : Memory CodeEntry) :
    visit node (fuel + 1) i path table =
      if hasR then
        visit node fuel right.toNat (path ++ [true])
          (if hasL then visit node fuel left.toNat (path ++ [false]) table else table)
      else if hasL then visit node fuel left.toNat (path ++ [false]) table else table := by
  rw [visit, h]

/-- The traversal writes the table one entry at a time. -/
theorem visit_wf (node : Nat → NodeRec) (fuel i : Nat) (path : BitString) {table : Memory CodeEntry}
    (h : Memory.wf table) : Memory.wf (visit node fuel i path table) := by
  induction fuel generalizing i path table with
  | zero => exact h
  | succ fuel ih =>
    cases hnode : node i with
    | leaf v =>
      rw [visit_leaf hnode]
      exact Memory.wf_write _ _ _ h
    | int hasL left hasR right =>
      rw [visit_int hnode]
      have hleft : Memory.wf (if hasL then visit node fuel left.toNat (path ++ [false]) table else table) := by
        split
        · exact ih _ _ h
        · exact h
      split
      · exact ih _ _ hleft
      · exact hleft

theorem buildCodes_wf (n : Nat) (node : Nat → NodeRec) {table : Memory CodeEntry} (h : Memory.wf table) :
    Memory.wf (buildCodes n node table) := by
  unfold buildCodes
  split
  · exact h
  · exact visit_wf node n 0 [] h

/-- The walk writes OUT one byte at a time. -/
theorem walkBits_out_wf {bits : BitString} {s t : State} (h : walkBits bits s = .ok t) (hs : Memory.wf s.out) :
    Memory.wf t.out := by
  refine walkBits_induct (P := fun u => Memory.wf u.out) ?_ hs h
  intro b u v hu hv
  obtain ⟨-, next, -, ⟨x, -, -, rfl⟩ | ⟨-, rfl⟩⟩ := walkBit_ok hv
  · exact Memory.wf_write _ _ _ hu
  · exact hu

theorem instrBody_keeps_canonical {i : Instr} {s t : State} (h : instrBody i s = .ok t) (hs : s.Canonical) :
    t.Canonical := by
  obtain ⟨hnode, hcode, hout⟩ := hs
  cases i with
  | init =>
    cases h
    exact ⟨hnode, List.Pairwise.nil, hout⟩
  | ldleaf val =>
    obtain ⟨-, rfl⟩ := loadRecord_ok h
    exact ⟨Memory.wf_write _ _ _ hnode, hcode, hout⟩
  | ldint hasL left hasR right =>
    obtain ⟨-, rfl⟩ := loadRecord_ok h
    exact ⟨Memory.wf_write _ _ _ hnode, hcode, hout⟩
  | build =>
    obtain ⟨-, rfl⟩ := buildBody_ok h
    exact ⟨hnode, buildCodes_wf _ _ hcode, hout⟩
  | enc val =>
    obtain ⟨e, -, -, rfl⟩ := encBody_ok h
    exact ⟨by simpa, by simpa, State.putOuts_wf _ hout⟩
  | flush =>
    obtain ⟨-, rfl⟩ | ⟨-, -, rfl⟩ := flushBody_ok h
    · exact ⟨hnode, hcode, hout⟩
    · exact ⟨hnode, hcode, Memory.wf_write _ _ _ hout⟩
  | setpad pad =>
    cases h
    exact ⟨hnode, hcode, hout⟩
  | decb val =>
    obtain ⟨bits, u, hwalk, rfl⟩ := decbBody_ok h
    have hout' := walkBits_out_wf hwalk hout
    obtain ⟨c, n, o, rfl⟩ := walkBits_eq hwalk
    exact ⟨hnode, hcode, hout'⟩
  | decend =>
    obtain ⟨bits, u, hwalk, -, rfl⟩ := decendBody_ok h
    have hout' := walkBits_out_wf hwalk hout
    obtain ⟨c, n, o, rfl⟩ := walkBits_eq hwalk
    exact ⟨hnode, hcode, hout'⟩

theorem exec_keeps_canonical {i : Instr} {s t : State} (h : exec i s = .next t) (hs : s.Canonical) : t.Canonical := by
  rcases exec_cases h with ⟨-, rfl⟩ | ⟨-, -, rfl⟩ | ⟨-, -, c, -, rfl⟩ | ⟨-, -, -, hbody⟩
  · exact instrBody_keeps_canonical (i := .init) rfl hs
  · exact hs
  · exact hs
  · exact instrBody_keeps_canonical hbody hs

theorem step_keeps_canonical {s t : State} (h : step s = .next t) (hs : s.Canonical) : t.Canonical := by
  rcases step_cases h with ⟨-, rfl⟩ | ⟨w, -, -, hrun⟩ | ⟨-, -, rfl⟩ | ⟨a, rest, -, -, -, ht⟩
  · exact hs
  · have htake : s.takeAccess.Canonical := hs
    rcases runWord_cases hrun with ⟨i, -, hexec⟩ | ⟨-, -, ⟨-, rfl⟩ | ⟨-, rfl⟩⟩
    · exact exec_keeps_canonical hexec htake
    · exact htake
    · exact htake
  · exact instrBody_keeps_canonical (i := .init) (s := s.takeAccess) rfl hs
  · rw [ht]; exact hs

/-- Settles O50: the step lemma of the canonical form, by what a step can do. -/
theorem stepKeepsMemoriesCanonical : Obligations.StepKeepsMemoriesCanonical := by
  unfold Obligations.StepKeepsMemoriesCanonical
  exact fun s t hnode hcode hout h => step_keeps_canonical h ⟨hnode, hcode, hout⟩

/-! ### The writers of each element (R12) -/

/-- Settles O51: by what a command can do, and for its own effect by the command. -/
theorem onlyTheNamedWriters : Obligations.OnlyTheNamedWriters := by
  unfold Obligations.OnlyTheNamedWriters
  intro i s t h
  rcases exec_cases h with ⟨rfl, rfl⟩ | ⟨-, -, rfl⟩ | ⟨-, hphase, c, -, rfl⟩ | ⟨-, -, -, hbody⟩
  · simp
  · simp
  · simp [hphase]
  · cases i with
    | init => cases hbody; simp
    | ldleaf val => obtain ⟨-, rfl⟩ := loadRecord_ok hbody; simp
    | ldint hasL left hasR right => obtain ⟨-, rfl⟩ := loadRecord_ok hbody; simp
    | build => obtain ⟨-, rfl⟩ := buildBody_ok hbody; simp
    | enc val => obtain ⟨e, -, -, rfl⟩ := encBody_ok hbody; simp
    | flush => obtain ⟨-, rfl⟩ | ⟨-, -, rfl⟩ := flushBody_ok hbody <;> simp
    | setpad pad => cases hbody; simp
    | decb val =>
      obtain ⟨bits, u, hwalk, rfl⟩ := decbBody_ok hbody
      obtain ⟨c, n, o, rfl⟩ := walkBits_eq hwalk
      simp
    | decend =>
      obtain ⟨bits, u, hwalk, -, rfl⟩ := decendBody_ok hbody
      obtain ⟨c, n, o, rfl⟩ := walkBits_eq hwalk
      simp

/-! ### OUT is append-only (R16, R24, R36) -/

/-- `t` comes from `s` by writing bytes of OUT at the cursor, upwards and below OUT_CAP. -/
def State.Appends (s t : State) : Prop :=
  t.outCap = s.outCap ∧ s.ocnt.toNat ≤ t.ocnt.toNat ∧ t.ocnt.toNat ≤ s.outCap.toNat ∧
    ∀ a, a < s.ocnt.toNat ∨ t.ocnt.toNat ≤ a → Memory.read t.out a = Memory.read s.out a

theorem State.Appends.refl {s : State} (h : s.ocnt.toNat ≤ s.outCap.toNat) : s.Appends s :=
  ⟨rfl, le_rfl, h, fun _ _ => rfl⟩

theorem State.Appends.trans {s t u : State} (hst : s.Appends t) (htu : t.Appends u) : s.Appends u := by
  obtain ⟨hcap, hup, -, hread⟩ := hst
  obtain ⟨hcap', hup', hle', hread'⟩ := htu
  refine ⟨hcap'.trans hcap, hup.trans hup', hcap ▸ hle', fun a ha => ?_⟩
  rw [hread' a (by omega), hread a (by omega)]

theorem State.appends_putOuts {s : State} {bs : List Byte} (h : s.ocnt.toNat + bs.length ≤ s.outCap.toNat) :
    s.Appends (s.putOuts bs) := by
  have hocnt := State.putOuts_ocnt_toNat h
  refine ⟨State.putOuts_outCap s bs, by omega, by omega, fun a ha => ?_⟩
  rw [State.putOuts_read h, if_neg (by omega)]

theorem State.appends_putOut {s : State} (h : s.ocnt.toNat + 1 ≤ s.outCap.toNat) (b : Byte) :
    s.Appends (s.putOut b) := State.appends_putOuts (bs := [b]) h

theorem walkBits_appends {bits : BitString} {s t : State} (h : walkBits bits s = .ok t)
    (hs : s.ocnt.toNat ≤ s.outCap.toNat) : s.Appends t := by
  refine walkBits_induct (P := fun u => s.Appends u) ?_ (.refl hs) h
  intro b u v hu hv
  obtain ⟨-, next, -, ⟨x, -, hroom, rfl⟩ | ⟨-, rfl⟩⟩ := walkBit_ok hv
  · exact hu.trans (State.appends_putOut hroom x)
  · exact hu

theorem instrBody_appends {i : Instr} (hi : i ≠ .init) {s t : State} (h : instrBody i s = .ok t)
    (hs : s.ocnt.toNat ≤ s.outCap.toNat) : s.Appends t := by
  cases i with
  | init => exact absurd rfl hi
  | ldleaf val => obtain ⟨-, rfl⟩ := loadRecord_ok h; exact .refl hs
  | ldint hasL left hasR right => obtain ⟨-, rfl⟩ := loadRecord_ok h; exact .refl hs
  | build => obtain ⟨-, rfl⟩ := buildBody_ok h; exact .refl hs
  | enc val =>
    obtain ⟨e, -, hroom, rfl⟩ := encBody_ok h
    exact State.appends_putOuts (by rwa [wholeBytes_length])
  | flush =>
    obtain ⟨-, rfl⟩ | ⟨-, hroom, rfl⟩ := flushBody_ok h
    · exact .refl hs
    · exact State.appends_putOut hroom s.acc
  | setpad pad => cases h; exact .refl hs
  | decb val => obtain ⟨bits, u, hwalk, rfl⟩ := decbBody_ok h; exact (walkBits_appends hwalk hs : s.Appends u)
  | decend => obtain ⟨bits, u, hwalk, -, rfl⟩ := decendBody_ok h; exact (walkBits_appends hwalk hs : s.Appends u)

/-- A command opens a session or appends to OUT. -/
theorem exec_opens_or_appends {i : Instr} {s t : State} (h : exec i s = .next t)
    (hs : s.ocnt.toNat ≤ s.outCap.toNat) : t = s.openSession ∨ s.Appends t := by
  rcases exec_cases h with ⟨-, rfl⟩ | ⟨-, -, rfl⟩ | ⟨-, -, c, -, rfl⟩ | ⟨hi, -, -, hbody⟩
  · exact .inl rfl
  · exact .inr (.refl hs)
  · exact .inr (.refl hs)
  · exact .inr (instrBody_appends hi hbody hs)

/-- A step opens a session or appends to OUT. -/
theorem step_opens_or_appends {s t : State} (h : step s = .next t) (hs : s.ocnt.toNat ≤ s.outCap.toNat) :
    t = s.takeAccess.openSession ∨ s.Appends t := by
  rcases step_cases h with ⟨-, rfl⟩ | ⟨w, -, -, hrun⟩ | ⟨-, -, rfl⟩ | ⟨a, rest, -, -, -, ht⟩
  · exact .inr (.refl hs)
  · rcases runWord_cases hrun with ⟨i, -, hexec⟩ | ⟨-, -, ⟨-, rfl⟩ | ⟨-, rfl⟩⟩
    · exact exec_opens_or_appends hexec hs
    · exact .inr (.refl hs)
    · exact .inr (.refl hs)
  · exact .inl rfl
  · rw [ht]; exact .inr (.refl hs)

/-- Settles O52: what a session's start leaves, or what appending keeps. -/
theorem outIsAppendOnly : Obligations.OutIsAppendOnly := by
  unfold Obligations.OutIsAppendOnly
  intro s t hs h
  rcases step_opens_or_appends h hs with rfl | ⟨hcap, hup, hle, hread⟩
  · exact ⟨Nat.zero_le _, rfl, .inl ⟨State.openSession_fresh _, rfl⟩⟩
  · exact ⟨hcap ▸ hle, hcap, .inr ⟨hup, hread⟩⟩

end Sys2Proof.Machine
end

section
/-! SUPPORT. The invariant of 10_state R33: it holds at reset, every command and every step keeps it. -/

namespace Sys2Proof.Machine

open Sys2Proof

/-! ### The part about OUT (R16, R24) -/

/-- What the invariant says of `ocnt` and OUT. -/
structure State.OutInv (s : State) : Prop where
  ocntBounded : s.ocnt.toNat ≤ s.outCap.toNat
  bytesWritten : ∀ a, a < s.ocnt.toNat → (Memory.read s.out a).isSome = true
  outInRange : ∀ k, k ∈ s.out.map Prod.fst → k < s.outCap.toNat
  outCanonical : Memory.wf s.out

theorem State.Inv.outInv {s : State} (h : s.Inv) : s.OutInv :=
  ⟨h.ocntBounded, h.bytesWritten, h.outInRange, h.outCanonical⟩

theorem State.OutInv.putOut {s : State} (h : s.OutInv) (hroom : s.ocnt.toNat < s.outCap.toNat) (b : Byte) :
    (s.putOut b).OutInv where
  ocntBounded := by rw [State.putOut_ocnt_toNat hroom]; exact hroom
  bytesWritten a ha := by
    rw [State.putOut_ocnt_toNat hroom] at ha
    rw [State.putOut_out, Memory.read_write]
    split
    · rfl
    · exact h.bytesWritten a (by omega)
  outInRange k hk := by
    rcases (Memory.mem_keys_write _ _ _ _).mp hk with rfl | hk
    · exact hroom
    · exact h.outInRange k hk
  outCanonical := Memory.wf_write _ _ _ h.outCanonical

theorem State.OutInv.putOuts {s : State} {bs : List Byte} (h : s.OutInv)
    (hroom : s.ocnt.toNat + bs.length ≤ s.outCap.toNat) : (s.putOuts bs).OutInv := by
  induction bs generalizing s with
  | nil => exact h
  | cons b bs ih =>
    rw [List.length_cons] at hroom
    have hb : s.ocnt.toNat < s.outCap.toNat := by omega
    refine ih (h.putOut hb b) ?_
    rw [State.putOut_ocnt_toNat hb, State.putOut_outCap]
    omega

/-! ### The walk stays inside the tree (R21, 40 R66) -/

theorem NodeRec.mem_children_of_child {r : NodeRec} {side : Bool} {c : NodeIndex} (h : r.child side = some c) :
    c.toNat ∈ r.children := by
  refine List.mem_map_of_mem (List.mem_filterMap.mpr ⟨r.child side, ?_, h⟩)
  cases side <;> simp

/-- WF1: a child of a record of a well-formed tree stands above its parent and inside the tree. -/
theorem treeWF_child {n : Nat} {node : Nat → NodeRec} (h : treeWF n node = true) {i : Nat} (hi : i < n) {side : Bool}
    {c : NodeIndex} (hc : (node i).child side = some c) : i < c.toNat ∧ c.toNat < n := by
  have hn : ¬ n = 0 := by omega
  have hwf1 : wf1 n node = true := by simp_all [treeWF]
  have hall := List.all_eq_true.mp (List.all_eq_true.mp hwf1 i (List.mem_range.mpr hi)) _
    (NodeRec.mem_children_of_child hc)
  exact of_decide_eq_true hall

/-- The walk stands at the root or on an internal record of the tree. -/
def State.CurInternal (s : State) : Prop :=
  s.cur = 0 ∨ (s.cur.toNat < s.nnodes.toNat ∧ (s.nodeAt s.cur.toNat).isLeaf = false)

theorem State.CurInternal.lt {s : State} (h : s.CurInternal) (hn : s.nnodes ≠ 0) : s.cur.toNat < s.nnodes.toNat := by
  rcases h with hcur | ⟨hcur, -⟩
  · rw [hcur]
    exact Nat.pos_of_ne_zero fun h0 => hn (BitVec.eq_of_toNat_eq h0)
  · exact hcur

/-- A walk over a well-formed tree keeps what the invariant says of OUT and of `cur`. -/
theorem walkBits_keeps_inv {bits : BitString} {s t : State} (h : walkBits bits s = .ok t)
    (htree : treeWF s.nnodes.toNat s.nodeAt = true) (hout : s.OutInv) (hcur : s.CurInternal) :
    t.OutInv ∧ t.CurInternal := by
  refine (walkBits_induct (P := fun u => treeWF u.nnodes.toNat u.nodeAt = true ∧ u.OutInv ∧ u.CurInternal) ?_
    ⟨htree, hout, hcur⟩ h).2
  rintro b u v ⟨htree, hout, hcur⟩ hv
  obtain ⟨hn, next, hchild, ⟨x, -, hroom, rfl⟩ | ⟨hint, rfl⟩⟩ := walkBit_ok hv
  · have hout' := hout.putOut hroom x
    exact ⟨htree, ⟨hout'.ocntBounded, hout'.bytesWritten, hout'.outInRange, hout'.outCanonical⟩, .inl rfl⟩
  · exact ⟨htree, ⟨hout.ocntBounded, hout.bytesWritten, hout.outInRange, hout.outCanonical⟩,
      .inr ⟨(treeWF_child htree (hcur.lt hn) hchild).2, hint⟩⟩

/-! ### A session's start and fault entry (R32, 60 R91) -/

/-- A session just opened meets the invariant, whatever was before, if the memories are in range and canonical. -/
theorem State.openSession_inv {s : State} (hnode : ∀ k, k ∈ s.node.map Prod.fst → k < Config.nodeCap)
    (hout : ∀ k, k ∈ s.out.map Prod.fst → k < s.outCap.toNat) (hnodeWf : Memory.wf s.node) (houtWf : Memory.wf s.out)
    (hcap : 1 ≤ s.outCap.toNat) : s.openSession.Inv where
  errOnlyInFault := by simp
  accZeroFilled k _ := by simp
  packerIdle _ _ := ⟨rfl, rfl⟩
  decoderIdle _ _ := ⟨rfl, rfl⟩
  holdEmpty _ := ⟨rfl, rfl⟩
  oneDirection := .inl ⟨rfl, rfl⟩
  padUnwritten _ := rfl
  countersFresh _ := ⟨rfl, rfl⟩
  ocntBounded := Nat.zero_le _
  nnodesBounded := Nat.zero_le _
  curInternal := .inl rfl
  treeBuilt h := absurd rfl h
  noCodeInLoad _ := rfl
  recordsLoaded i hi := absurd hi (Nat.not_lt_zero i)
  bytesWritten a ha := absurd ha (Nat.not_lt_zero a)
  nodeInRange := hnode
  outInRange := hout
  nodeCanonical := hnodeWf
  codeCanonical := List.Pairwise.nil
  outCanonical := houtWf
  outCapPositive := hcap

theorem State.Inv.openSession {s : State} (h : s.Inv) : s.openSession.Inv :=
  State.openSession_inv h.nodeInRange h.outInRange h.nodeCanonical h.outCanonical h.outCapPositive

/-- Settles O48: reset is a session just opened over empty memories. -/
theorem invAtReset : Obligations.InvAtReset := by
  unfold Obligations.InvAtReset
  obtain ⟨hnode, -, hout⟩ := reset_memories_wf
  refine State.openSession_reset ▸ State.openSession_inv ?_ ?_ hnode hout ?_
  · intro k hk; cases hk
  · intro k hk; cases hk
  · rw [State.reset_outCap_toNat]; omega

theorem State.Inv.enterFault {s : State} (h : s.Inv) {c : ErrCode} (hc : c ≠ .none) (w : Word) :
    (s.enterFault c w).Inv :=
  { h with
    errOnlyInFault := iff_of_false (fun hnone => hc hnone.1) (fun hne => hne rfl)
    packerIdle := fun _ hne => absurd rfl hne
    decoderIdle := fun _ hne => absurd rfl hne
    padUnwritten := by simp
    countersFresh := by simp
    treeBuilt := fun _ hne => absurd rfl hne
    noCodeInLoad := by simp }

/-- The invariant does not speak of the host's side. -/
theorem State.Inv.host {s : State} (h : s.Inv) (b : List HostAccess) (r : Reply) (d : Nat) :
    { s with bus := b, reply := r, draws := d }.Inv := { h with }

/-! ### The commands -/

/-- A load (R62, R63). -/
theorem State.Inv.pushNode {s : State} (h : s.Inv) (hphase : s.phase = .load)
    (hroom : s.nnodes.toNat < Config.nodeCap) {r : NodeRec} (hr : r.fieldsOk = true) : (s.pushNode r).Inv :=
  { h with
    nnodesBounded := by rw [State.pushNode_nnodes_toNat hroom]; exact hroom
    curInternal := .inl (h.decoderIdle (by simp [hphase]) (by simp [hphase])).2
    treeBuilt := fun hne => absurd hphase hne
    recordsLoaded := fun i hi => by
      rw [State.pushNode_nnodes_toNat hroom] at hi
      rw [State.pushNode_node, Memory.read_write]
      split
      · exact ⟨r, rfl, hr⟩
      · exact h.recordsLoaded i (by omega)
    nodeInRange := fun k hk => by
      rcases (Memory.mem_keys_write _ _ _ _).mp hk with rfl | hk
      · exact hroom
      · exact h.nodeInRange k hk
    nodeCanonical := Memory.wf_write _ _ _ h.nodeCanonical }

/-- An accepted BUILD (R68). -/
theorem State.Inv.build {s : State} (h : s.Inv) (hphase : s.phase = .load)
    (htree : treeWF s.nnodes.toNat s.nodeAt = true) :
    { s with code := buildCodes s.nnodes.toNat s.nodeAt s.code, phase := .ready }.Inv :=
  { h with
    errOnlyInFault := iff_of_true (h.errOnlyInFault.mpr (by simp [hphase])) (by simp)
    packerIdle := fun _ _ => h.packerIdle (by simp [hphase]) (by simp [hphase])
    decoderIdle := fun _ _ => h.decoderIdle (by simp [hphase]) (by simp [hphase])
    padUnwritten := fun _ => h.padUnwritten (.inl hphase)
    countersFresh := fun _ => h.countersFresh (.inl hphase)
    treeBuilt := fun _ _ => ⟨htree, by rw [h.noCodeInLoad hphase]; rfl⟩
    noCodeInLoad := by simp
    codeCanonical := buildCodes_wf _ _ h.codeCanonical }

/-- The phases that accept ENC and FLUSH are none of the others the invariant names. -/
theorem ne_of_ready_or_enc {p : Phase} (h : p = .ready ∨ p = .enc) : p ≠ .load ∧ p ≠ .dec ∧ p ≠ .fault := by
  rcases h with rfl | rfl <;> decide

/-- The phases that accept DECB and DECEND are none of the others the invariant names. -/
theorem ne_of_ready_or_dec {p : Phase} (h : p = .ready ∨ p = .dec) : p ≠ .load ∧ p ≠ .enc ∧ p ≠ .fault := by
  rcases h with rfl | rfl <;> decide

/-- The bits below a left-aligned partial byte are 0. -/
theorem leftAligned_getLsbD (rest : BitString) {k : Nat} (hk : k < 8 - rest.length) :
    (leftAligned rest).getLsbD k = false := by
  have hrev : (List.replicate (8 - rest.length) false)[k]? = some false := by simp [hk]
  rw [leftAligned, byte8_getLsbD _ (by omega), List.reverse_append, List.reverse_replicate,
    List.getElem?_append_left (by simpa using hk), hrev, Option.getD_some]

/-- An accepted ENC (R73). -/
theorem State.Inv.packBits {s : State} (h : s.Inv) (hphase : s.phase = .ready ∨ s.phase = .enc) {bits : BitString}
    (hroom : s.ocnt.toNat + bits.length / 8 ≤ s.outCap.toNat) : (s.packBits bits).Inv := by
  obtain ⟨hload, hdec, hfault⟩ := ne_of_ready_or_enc hphase
  have hidle := h.decoderIdle hdec hfault
  have hout := h.outInv.putOuts (bs := wholeBytes (bits.length / 8) bits) (by rwa [wholeBytes_length])
  have haccn := s.packBits_accn_toNat bits
  rw [State.packBits] at haccn ⊢
  obtain ⟨n, o, heq⟩ := s.putOuts_frame (wholeBytes (bits.length / 8) bits)
  rw [heq] at hout haccn ⊢
  exact
    { hout, h with
      errOnlyInFault := iff_of_true (h.errOnlyInFault.mpr hfault) (by simp)
      accZeroFilled := fun k hk => leftAligned_getLsbD _ (by rw [length_drop_wholeBytes, ← haccn]; exact hk)
      packerIdle := fun hne => absurd rfl hne
      decoderIdle := fun _ _ => hidle
      oneDirection := .inr hidle
      padUnwritten := fun _ => h.padUnwritten (.inr hphase)
      countersFresh := by simp
      treeBuilt := fun _ _ => h.treeBuilt hload hfault
      noCodeInLoad := by simp }

/-- An accepted FLUSH (R74), whatever it appends to OUT. -/
theorem State.Inv.flush {s : State} (h : s.Inv) (hphase : s.phase = .ready ∨ s.phase = .enc) (p : BitVec 3) {n : Word}
    {o : List Host.Cell} (hout : { s with ocnt := n, out := o }.OutInv) :
    { s with ocnt := n, out := o, pad := p, acc := 0, accn := 0, phase := .doneE }.Inv := by
  obtain ⟨hload, hdec, hfault⟩ := ne_of_ready_or_enc hphase
  have hidle := h.decoderIdle hdec hfault
  exact
    { hout, h with
      errOnlyInFault := iff_of_true (h.errOnlyInFault.mpr hfault) (by simp)
      accZeroFilled := fun k _ => BitVec.getLsbD_zero
      packerIdle := fun _ _ => ⟨rfl, rfl⟩
      decoderIdle := fun _ _ => hidle
      oneDirection := .inr hidle
      padUnwritten := by simp
      countersFresh := by simp
      treeBuilt := fun _ _ => h.treeBuilt hload hfault
      noCodeInLoad := by simp }

/-- An accepted SETPAD or DECB (R81, R82), whatever it holds and appends to OUT and wherever its walk ends. -/
theorem State.Inv.decode {s : State} (h : s.Inv) (hphase : s.phase = .ready ∨ s.phase = .dec) (p : BitVec 3) (i : Word)
    {n : Word} {o : List Host.Cell} {c : NodeIndex} {v : Byte} {b : Bool}
    (hout : { s with ocnt := n, out := o }.OutInv) (hcur : { s with cur := c }.CurInternal)
    (hhold : b = false → v = 0 ∧ c = 0) :
    { s with ocnt := n, out := o, cur := c, pad := p, hold := v, holdv := b, icnt := i, phase := .dec }.Inv := by
  obtain ⟨hload, henc, hfault⟩ := ne_of_ready_or_dec hphase
  have hidle := h.packerIdle henc hfault
  exact
    { hout, h with
      errOnlyInFault := iff_of_true (h.errOnlyInFault.mpr hfault) (by simp)
      packerIdle := fun _ _ => hidle
      decoderIdle := fun hne => absurd rfl hne
      holdEmpty := hhold
      oneDirection := .inl hidle
      padUnwritten := by simp
      countersFresh := by simp
      curInternal := hcur
      treeBuilt := fun _ _ => h.treeBuilt hload hfault
      noCodeInLoad := by simp }

/-- An accepted DECEND (R83), whatever it appends to OUT. -/
theorem State.Inv.decend {s : State} (h : s.Inv) (hphase : s.phase = .ready ∨ s.phase = .dec) {n : Word}
    {o : List Host.Cell} (hout : { s with ocnt := n, out := o }.OutInv) :
    { s with ocnt := n, out := o, cur := 0, hold := 0, holdv := false, phase := .doneD }.Inv := by
  obtain ⟨hload, henc, hfault⟩ := ne_of_ready_or_dec hphase
  have hidle := h.packerIdle henc hfault
  exact
    { hout, h with
      errOnlyInFault := iff_of_true (h.errOnlyInFault.mpr hfault) (by simp)
      packerIdle := fun _ _ => hidle
      decoderIdle := fun _ _ => ⟨rfl, rfl⟩
      holdEmpty := fun _ => ⟨rfl, rfl⟩
      oneDirection := .inl hidle
      padUnwritten := by simp
      countersFresh := by simp
      curInternal := .inl rfl
      treeBuilt := fun _ _ => h.treeBuilt hload hfault
      noCodeInLoad := by simp }

/-- The walk of an accepted command of the decode direction keeps what the invariant says of OUT and of `cur`. -/
theorem State.Inv.walkBits {s : State} (h : s.Inv) (hphase : s.phase = .ready ∨ s.phase = .dec) {bits : BitString}
    {c : NodeIndex} {n : Word} {o : List Host.Cell}
    (hwalk : walkBits bits s = .ok { s with cur := c, ocnt := n, out := o }) :
    { s with ocnt := n, out := o }.OutInv ∧ { s with cur := c }.CurInternal := by
  obtain ⟨hload, -, hfault⟩ := ne_of_ready_or_dec hphase
  obtain ⟨htree, -⟩ := h.treeBuilt hload hfault
  obtain ⟨hout, hcur⟩ := walkBits_keeps_inv hwalk htree h.outInv h.curInternal
  exact ⟨⟨hout.ocntBounded, hout.bytesWritten, hout.outInRange, hout.outCanonical⟩, hcur⟩

/-- The own effect of a command, in a phase that accepts it, keeps the invariant. -/
theorem instrBody_keeps_inv {i : Instr} {s t : State} (hw : i.wf = true) (hacc : s.phase ∈ acceptedIn i)
    (hbody : instrBody i s = .ok t) (h : s.Inv) : t.Inv := by
  cases i with
  | init =>
    cases hbody
    exact h.openSession
  | ldleaf val =>
    obtain ⟨hroom, rfl⟩ := loadRecord_ok hbody
    exact h.pushNode (by simpa [acceptedIn] using hacc) hroom rfl
  | ldint hasL left hasR right =>
    obtain ⟨hroom, rfl⟩ := loadRecord_ok hbody
    exact h.pushNode (by simpa [acceptedIn] using hacc) hroom hw
  | build =>
    obtain ⟨htree, rfl⟩ := buildBody_ok hbody
    exact h.build (by simpa [acceptedIn] using hacc) htree
  | enc val =>
    obtain ⟨e, -, hroom, rfl⟩ := encBody_ok hbody
    exact h.packBits (by simpa [acceptedIn] using hacc) hroom
  | flush =>
    have hphase : s.phase = .ready ∨ s.phase = .enc := by simpa [acceptedIn] using hacc
    obtain ⟨-, rfl⟩ | ⟨-, hroom, rfl⟩ := flushBody_ok hbody
    · exact h.flush hphase _ h.outInv
    · exact h.flush hphase _ (h.outInv.putOut hroom s.acc)
  | setpad pad =>
    cases hbody
    have hphase : s.phase = .ready := by simpa [acceptedIn] using hacc
    exact h.decode (.inl hphase) pad s.icnt h.outInv h.curInternal h.holdEmpty
  | decb val =>
    have hphase : s.phase = .ready ∨ s.phase = .dec := by simpa [acceptedIn] using hacc
    obtain ⟨bits, u, hwalk, rfl⟩ := decbBody_ok hbody
    obtain ⟨c, n, o, rfl⟩ := walkBits_eq hwalk
    obtain ⟨hout, hcur⟩ := h.walkBits hphase hwalk
    exact h.decode hphase s.pad _ hout hcur (by simp)
  | decend =>
    have hphase : s.phase = .ready ∨ s.phase = .dec := by simpa [acceptedIn] using hacc
    obtain ⟨bits, u, hwalk, hroot, rfl⟩ := decendBody_ok hbody
    obtain ⟨c, n, o, rfl⟩ := walkBits_eq hwalk
    obtain ⟨hout, -⟩ := h.walkBits hphase hwalk
    obtain rfl : c = 0 := hroot
    exact h.decend hphase hout

theorem raiseFault_keeps_inv {c : ErrCode} {w : Word} {s t : State} (hc : c ≠ .none)
    (h : raiseFault c w s = .next t) (hs : s.Inv) : t.Inv := by
  by_cases hf : s.phase = .fault
  · rw [raiseFault_in_fault hf] at h
    exact Host.Outcome.next.inj h ▸ hs
  · rw [raiseFault_of_ne hf] at h
    exact Host.Outcome.next.inj h ▸ hs.enterFault hc w

/-- Every command keeps the invariant. -/
theorem exec_keeps_inv {i : Instr} {s t : State} (h : exec i s = .next t) (hs : s.Inv) : t.Inv := by
  by_cases hw : i.wf = true
  · rcases exec_cases h with ⟨-, rfl⟩ | ⟨-, -, rfl⟩ | ⟨-, -, c, hc, rfl⟩ | ⟨-, -, hacc, hbody⟩
    · exact hs.openSession
    · exact hs
    · exact hs.enterFault hc _
    · exact instrBody_keeps_inv hw hacc hbody hs
  · rw [exec_of_not_wf hw] at h
    exact raiseFault_keeps_inv (by decide) h hs

theorem runWord_keeps_inv {w : Word} {s t : State} (h : runWord w s = .next t) (hs : s.Inv) : t.Inv := by
  rcases runWord_cases h with ⟨i, -, hexec⟩ | ⟨-, -, ⟨-, rfl⟩ | ⟨-, rfl⟩⟩
  · exact exec_keeps_inv hexec hs
  · exact hs
  · exact hs.enterFault (by decide) w

/-- Settles O49: the step lemma of the invariant, by what a step can do. -/
theorem stepKeepsInv : Obligations.StepKeepsInv := by
  unfold Obligations.StepKeepsInv
  intro s t hs h
  have htake : s.takeAccess.Inv := hs.host s.bus.tail .none s.draws
  rcases step_cases h with ⟨-, rfl⟩ | ⟨w, -, -, hrun⟩ | ⟨-, -, rfl⟩ | ⟨a, rest, -, -, -, ht⟩
  · exact hs
  · exact runWord_keeps_inv hrun htake
  · exact htake.openSession
  · rw [ht]; exact hs.host rest t.reply t.draws

/-! ### The phase table (70 R100) -/

/-- A command that succeeds leads to its phase. -/
theorem instrBody_ok_phase {i : Instr} {s t : State} (hacc : s.phase ∈ acceptedIn i) (h : instrBody i s = .ok t) :
    t.phase = successPhase i := by
  cases i with
  | init => cases h; rfl
  | ldleaf val => obtain ⟨-, rfl⟩ := loadRecord_ok h; exact List.mem_singleton.mp hacc
  | ldint hasL left hasR right => obtain ⟨-, rfl⟩ := loadRecord_ok h; exact List.mem_singleton.mp hacc
  | build => obtain ⟨-, rfl⟩ := buildBody_ok h; rfl
  | enc val => obtain ⟨e, -, -, rfl⟩ := encBody_ok h; rfl
  | flush => obtain ⟨-, rfl⟩ | ⟨-, -, rfl⟩ := flushBody_ok h <;> rfl
  | setpad pad => cases h; rfl
  | decb val => obtain ⟨bits, u, -, rfl⟩ := decbBody_ok h; rfl
  | decend => obtain ⟨bits, u, -, -, rfl⟩ := decendBody_ok h; rfl

/-- Under the invariant a command faults only with the causes the table lists: in READY nothing is pending, held or
declared, so that FLUSH, DECB and DECEND do not fault there. -/
theorem instrBody_error_mem_faultCauses {i : Instr} {s : State} {c : ErrCode} (hs : s.Inv)
    (hacc : s.phase ∈ acceptedIn i) (h : instrBody i s = .error c) : c ∈ faultCauses s.phase i := by
  cases i with
  | init => cases h
  | ldleaf val =>
    have hphase : s.phase = .load := by simpa [acceptedIn] using hacc
    rw [hphase, loadRecord_error h]
    exact List.mem_singleton.mpr rfl
  | ldint hasL left hasR right =>
    have hphase : s.phase = .load := by simpa [acceptedIn] using hacc
    rw [hphase, loadRecord_error h]
    exact List.mem_singleton.mpr rfl
  | build =>
    have hphase : s.phase = .load := by simpa [acceptedIn] using hacc
    rw [hphase, buildBody_error h]
    exact List.mem_singleton.mpr rfl
  | enc val =>
    have hphase : s.phase = .ready ∨ s.phase = .enc := by simpa [acceptedIn] using hacc
    have hc : c ∈ [ErrCode.nocode, .ovf] := by simpa using encBody_error h
    rcases hphase with hphase | hphase <;> rw [hphase] <;> exact hc
  | flush =>
    obtain ⟨hpending, rfl⟩ := flushBody_error h
    have hphase : s.phase = .ready ∨ s.phase = .enc := by simpa [acceptedIn] using hacc
    rcases hphase with hphase | hphase
    · exact absurd (hs.packerIdle (by simp [hphase]) (by simp [hphase])).2 hpending
    · rw [hphase]; exact List.mem_singleton.mpr rfl
  | setpad pad => cases h
  | decb val =>
    obtain ⟨hheld, hc⟩ := decbBody_error h
    have hphase : s.phase = .ready ∨ s.phase = .dec := by simpa [acceptedIn] using hacc
    rcases hphase with hphase | hphase
    · simp [(hs.decoderIdle (by simp [hphase]) (by simp [hphase])).1] at hheld
    · have hmem : c ∈ [ErrCode.traversal, .ovf] := by simpa using hc
      rw [hphase]; exact hmem
  | decend =>
    obtain ⟨hwhy, hc⟩ := decendBody_error h
    have hphase : s.phase = .ready ∨ s.phase = .dec := by simpa [acceptedIn] using hacc
    rcases hphase with hphase | hphase
    · obtain ⟨hheld, hcur⟩ := hs.decoderIdle (by simp [hphase]) (by simp [hphase])
      have hpad := hs.padUnwritten (.inr (.inl hphase))
      rcases hwhy with hv | hp | hr
      · simp [hheld] at hv
      · exact absurd hpad hp
      · exact absurd hcur hr
    · have hmem : c ∈ [ErrCode.pad, .traversal, .ovf, .trunc] := by simpa using hc
      rw [hphase]; exact hmem

theorem successPhase_ne_fault (i : Instr) : successPhase i ≠ .fault := by
  cases i <;> simp [successPhase]

/-- Settles O43: the frame of a command gives its rows, its body the success phase and the causes. -/
theorem phaseTable : Obligations.PhaseTable := by
  unfold Obligations.PhaseTable
  intro s i hs hw
  by_cases hi : i = .init
  · subst hi
    exact ⟨s.openSession, rfl, fun _ => rfl, fun hne => absurd rfl hne,
      fun _ hacc => absurd (by cases s.phase <;> simp [acceptedIn]) hacc, fun _ _ => .inl ⟨rfl, rfl⟩⟩
  obtain ⟨t, ht⟩ := exec_answers i s
  refine ⟨t, ht, fun h => absurd h hi, ?_⟩
  have hrun := exec_eq_runCommand hi hw s ▸ ht
  rcases runCommand_cases hrun with ⟨hf, rfl⟩ | ⟨hf, hacc, rfl⟩ | ⟨hf, hacc, hbody⟩ | ⟨hf, hacc, c, hbody, rfl⟩
  · exact ⟨fun _ _ => rfl, fun hne => absurd hf hne, fun hne => absurd hf hne⟩
  · exact ⟨fun _ h => absurd h hf, fun _ _ => ⟨rfl, rfl⟩, fun _ h => absurd h hacc⟩
  · have hphase := instrBody_ok_phase hacc hbody
    have hnone := (exec_keeps_inv ht hs).errOnlyInFault.mpr (hphase ▸ successPhase_ne_fault i)
    exact ⟨fun _ h => absurd h hf, fun _ h => absurd hacc h, fun _ _ => .inl ⟨hphase, hnone.1⟩⟩
  · exact ⟨fun _ h => absurd h hf, fun _ h => absurd hacc h,
      fun _ _ => .inr ⟨rfl, instrBody_error_mem_faultCauses hs hacc hbody⟩⟩

end Sys2Proof.Machine
end

section
/-! SUPPORT. Noninterference: the unspecified contents of NODE and OUT (10_state R22, R24) reach nothing. Two states that
agree on the rest answer alike, operation by operation. -/

namespace Sys2Proof.Machine

open Sys2Proof

/-! ### What two such states agree on -/

/-- The second state is the first with other memories. -/
theorem State.SameDefined.eq_with {s t : State} (h : s.SameDefined t) : ∃ m o, t = { s with node := m, out := o } :=
  ⟨t.node, t.out, h.1.symm⟩

theorem State.SameDefined.phase_eq {s t : State} (h : s.SameDefined t) : t.phase = s.phase := by
  obtain ⟨m, o, rfl⟩ := h.eq_with; rfl

theorem State.SameDefined.bus_eq {s t : State} (h : s.SameDefined t) : t.bus = s.bus := by
  obtain ⟨m, o, rfl⟩ := h.eq_with; rfl

theorem State.SameDefined.roomFor_eq {s t : State} (h : s.SameDefined t) : t.roomFor = s.roomFor := by
  obtain ⟨m, o, rfl⟩ := h.eq_with; rfl

theorem State.SameDefined.regValue_eq {s t : State} (h : s.SameDefined t) : t.regValue = s.regValue := by
  obtain ⟨m, o, rfl⟩ := h.eq_with; rfl

/-- Every read of NODE is guarded by `nnodes` (R22). -/
theorem State.SameDefined.nodeAt_eq {s t : State} (h : s.SameDefined t) : t.nodeAt = s.nodeAt := by
  obtain ⟨m, o, rfl⟩ := h.eq_with
  obtain ⟨-, hnode, -⟩ := h
  funext i
  unfold State.nodeAt
  by_cases hi : i < s.nnodes.toNat
  · rw [if_pos hi, if_pos hi, hnode i hi]
  · rw [if_neg hi, if_neg hi]

/-- Every promised read of OUT is guarded by `ocnt` (20_memory R46). -/
theorem State.SameDefined.resultByte_eq {s t : State} (h : s.SameDefined t) (a : Nat) :
    t.resultByte a = s.resultByte a := by
  obtain ⟨m, o, rfl⟩ := h.eq_with
  obtain ⟨-, -, hout⟩ := h
  unfold State.resultByte
  by_cases ha : a < s.ocnt.toNat
  · rw [hout a ha]; rfl
  · simp [ha]

/-! ### The updates -/

theorem State.SameDefined.openSession {s t : State} (h : s.SameDefined t) : s.openSession.SameDefined t.openSession := by
  obtain ⟨m, o, rfl⟩ := h.eq_with
  exact ⟨rfl, fun i hi => absurd hi (Nat.not_lt_zero i), fun a ha => absurd ha (Nat.not_lt_zero a)⟩

theorem State.SameDefined.enterFault {s t : State} (h : s.SameDefined t) (c : ErrCode) (w : Word) :
    (s.enterFault c w).SameDefined (t.enterFault c w) := by
  obtain ⟨m, o, rfl⟩ := h.eq_with
  obtain ⟨-, hnode, hout⟩ := h
  exact ⟨rfl, hnode, hout⟩

theorem State.SameDefined.takeAccess {s t : State} (h : s.SameDefined t) : s.takeAccess.SameDefined t.takeAccess := by
  obtain ⟨m, o, rfl⟩ := h.eq_with
  obtain ⟨-, hnode, hout⟩ := h
  exact ⟨rfl, hnode, hout⟩

/-- Two memories that agree below an address, after a write at it, agree one further. -/
theorem Memory.read_write_congr {α : Type} {m m' : Memory α} {n : Nat} (h : ∀ i, i < n → m.read i = m'.read i) (x : α) :
    ∀ i, i < n + 1 → (m.write n x).read i = (m'.write n x).read i := by
  intro i hi
  rw [Memory.read_write, Memory.read_write]
  split
  · rfl
  · exact h i (by omega)

theorem State.SameDefined.pushNode {s t : State} (h : s.SameDefined t) (hroom : s.nnodes.toNat < Config.nodeCap)
    (r : NodeRec) : (s.pushNode r).SameDefined (t.pushNode r) := by
  obtain ⟨m, o, rfl⟩ := h.eq_with
  obtain ⟨-, hnode, hout⟩ := h
  refine ⟨rfl, ?_, hout⟩
  rw [State.pushNode_nnodes_toNat hroom]
  exact Memory.read_write_congr hnode r

theorem State.SameDefined.putOut {s t : State} (h : s.SameDefined t) (hroom : s.ocnt.toNat < s.outCap.toNat)
    (b : Byte) : (s.putOut b).SameDefined (t.putOut b) := by
  obtain ⟨m, o, rfl⟩ := h.eq_with
  obtain ⟨-, hnode, hout⟩ := h
  refine ⟨rfl, hnode, ?_⟩
  rw [State.putOut_ocnt_toNat hroom]
  exact Memory.read_write_congr hout b

theorem State.SameDefined.putOuts {s t : State} {bs : List Byte} (h : s.SameDefined t)
    (hroom : s.ocnt.toNat + bs.length ≤ s.outCap.toNat) : (s.putOuts bs).SameDefined (t.putOuts bs) := by
  induction bs generalizing s t with
  | nil => exact h
  | cons b bs ih =>
    rw [List.length_cons] at hroom
    have hb : s.ocnt.toNat < s.outCap.toNat := by omega
    refine ih (h.putOut hb b) ?_
    rw [State.putOut_ocnt_toNat hb, State.putOut_outCap]
    omega

/-- The packer's registers may be set alike. -/
theorem State.SameDefined.setPacker {s t : State} (h : s.SameDefined t) (p : BitVec 3) (a : Byte) (k : BitVec 3)
    (i : Word) (ph : Phase) :
    { s with pad := p, acc := a, accn := k, icnt := i, phase := ph }.SameDefined
      { t with pad := p, acc := a, accn := k, icnt := i, phase := ph } := by
  obtain ⟨m, o, rfl⟩ := h.eq_with
  obtain ⟨-, hnode, hout⟩ := h
  exact ⟨rfl, hnode, hout⟩

/-- The decoder's registers may be set alike. -/
theorem State.SameDefined.setDecoder {s t : State} (h : s.SameDefined t) (v : Byte) (b : Bool) (c : NodeIndex)
    (i : Word) (ph : Phase) :
    { s with hold := v, holdv := b, cur := c, icnt := i, phase := ph }.SameDefined
      { t with hold := v, holdv := b, cur := c, icnt := i, phase := ph } := by
  obtain ⟨m, o, rfl⟩ := h.eq_with
  obtain ⟨-, hnode, hout⟩ := h
  exact ⟨rfl, hnode, hout⟩

/-! ### The bodies of the commands -/

/-- Two bodies answer alike: states that agree, or the same fault. -/
def SameResult (x y : Except ErrCode State) : Prop :=
  (∃ u v, x = .ok u ∧ y = .ok v ∧ u.SameDefined v) ∨ ∃ c, x = .error c ∧ y = .error c

theorem SameResult.ok {u v : State} (h : u.SameDefined v) : SameResult (.ok u) (.ok v) := .inl ⟨u, v, rfl, rfl, h⟩

theorem SameResult.error (c : ErrCode) : SameResult (.error c) (.error c) := .inr ⟨c, rfl, rfl⟩

section Alike

variable {s t : State}

theorem loadRecord_same (h : s.SameDefined t) (r : NodeRec) : SameResult (loadRecord r s) (loadRecord r t) := by
  have hnn : t.nnodes = s.nnodes := by obtain ⟨m, o, rfl⟩ := h.eq_with; rfl
  by_cases hroom : s.nnodes.toNat < Config.nodeCap
  · rw [loadRecord_of_room hroom, loadRecord_of_room (hnn ▸ hroom)]
    exact .ok (h.pushNode hroom r)
  · rw [loadRecord_of_full hroom, loadRecord_of_full (hnn ▸ hroom)]
    exact .error _

theorem buildBody_same (h : s.SameDefined t) : SameResult (buildBody s) (buildBody t) := by
  unfold buildBody
  rw [h.nodeAt_eq]
  obtain ⟨m, o, rfl⟩ := h.eq_with
  obtain ⟨-, hnode, hout⟩ := h
  dsimp only
  split
  · exact .ok ⟨rfl, hnode, hout⟩
  · exact .error _

theorem encBody_same (h : s.SameDefined t) (val : Byte) : SameResult (encBody val s) (encBody val t) := by
  have hcode : t.codeAt val = s.codeAt val := by obtain ⟨m, o, rfl⟩ := h.eq_with; rfl
  have hpending : t.pending = s.pending := by obtain ⟨m, o, rfl⟩ := h.eq_with; rfl
  unfold encBody
  rw [hcode, hpending, h.roomFor_eq]
  cases s.codeAt val with
  | none => exact .error _
  | some e =>
    dsimp only
    split
    · rename_i hroom
      have hout := h.putOuts (bs := wholeBytes ((s.pending ++ e.bits).length / 8) (s.pending ++ e.bits))
        (by rw [wholeBytes_length]; exact (State.roomFor_iff s _).mp hroom)
      obtain ⟨m, o, rfl⟩ := h.eq_with
      exact .ok (by simpa using hout.setPacker s.pad _ _ (s.icnt + 1) .enc)
    · exact .error _

theorem flushBody_same (h : s.SameDefined t) : SameResult (flushBody s) (flushBody t) := by
  unfold flushBody
  rw [h.roomFor_eq]
  obtain ⟨m, o, rfl⟩ := h.eq_with
  dsimp only
  split
  · exact .ok (h.setPacker _ _ _ s.icnt _)
  · split
    · rename_i hroom
      exact .ok ((h.putOut ((State.roomFor_iff s 1).mp hroom) s.acc).setPacker _ _ _ s.icnt _)
    · exact .error _

theorem setpadBody_same (h : s.SameDefined t) (pad : BitVec 3) : SameResult (setpadBody pad s) (setpadBody pad t) := by
  obtain ⟨m, o, rfl⟩ := h.eq_with
  exact .ok (h.setPacker pad s.acc s.accn s.icnt .dec)

theorem walkBit_same (h : s.SameDefined t) (b : Bool) : SameResult (walkBit b s) (walkBit b t) := by
  unfold walkBit
  rw [h.nodeAt_eq, h.roomFor_eq]
  obtain ⟨m, o, rfl⟩ := h.eq_with
  dsimp only
  split
  · exact .error _
  · cases (s.nodeAt s.cur.toNat).child b with
    | none => exact .error _
    | some next =>
      dsimp only
      cases s.nodeAt next.toNat with
      | leaf v =>
        dsimp only
        split
        · rename_i hroom
          exact .ok ((h.putOut ((State.roomFor_iff s 1).mp hroom) v).setDecoder s.hold s.holdv 0 s.icnt s.phase)
        · exact .error _
      | int hasL left hasR right => exact .ok (h.setDecoder s.hold s.holdv next s.icnt s.phase)

theorem walkBits_same (h : s.SameDefined t) (bits : BitString) : SameResult (walkBits bits s) (walkBits bits t) := by
  induction bits generalizing s t with
  | nil => exact .ok h
  | cons b rest ih =>
    unfold walkBits
    obtain ⟨u, v, hu, hv, huv⟩ | ⟨c, hs, ht⟩ := walkBit_same h b
    · rw [hu, hv]; exact ih huv
    · rw [hs, ht]; exact .error c

theorem walkHeld_same (h : s.SameDefined t) (k : Nat) : SameResult (walkHeld k s) (walkHeld k t) := by
  have hhold : t.hold = s.hold := by obtain ⟨m, o, rfl⟩ := h.eq_with; rfl
  unfold walkHeld
  rw [hhold]
  exact walkBits_same h _

theorem decbBody_same (h : s.SameDefined t) (val : Byte) : SameResult (decbBody val s) (decbBody val t) := by
  have hholdv : t.holdv = s.holdv := by obtain ⟨m, o, rfl⟩ := h.eq_with; rfl
  have hwalk : SameResult (if s.holdv then walkHeld 8 s else .ok s) (if s.holdv then walkHeld 8 t else .ok t) := by
    split
    · exact walkHeld_same h 8
    · exact .ok h
  unfold decbBody
  rw [hholdv]
  obtain ⟨u, v, hu, hv, huv⟩ | ⟨c, hs, ht⟩ := hwalk
  · rw [hu, hv]
    obtain ⟨m, o, rfl⟩ := huv.eq_with
    exact .ok (huv.setDecoder val true u.cur _ .dec)
  · rw [hs, ht]; exact .error c

theorem endPayload_same (h : s.SameDefined t) : SameResult (endPayload s) (endPayload t) := by
  obtain ⟨m, o, rfl⟩ := h.eq_with
  unfold endPayload
  dsimp only
  split
  · exact .ok (h.setDecoder 0 false s.cur s.icnt .doneD)
  · exact .error _

theorem decendBody_same (h : s.SameDefined t) : SameResult (decendBody s) (decendBody t) := by
  have hholdv : t.holdv = s.holdv := by obtain ⟨m, o, rfl⟩ := h.eq_with; rfl
  have hpad : t.pad = s.pad := by obtain ⟨m, o, rfl⟩ := h.eq_with; rfl
  unfold decendBody
  rw [hholdv, hpad]
  split
  · obtain ⟨u, v, hu, hv, huv⟩ | ⟨c, hs, ht⟩ := walkHeld_same h (8 - s.pad.toNat)
    · rw [hu, hv]; exact endPayload_same huv
    · rw [hs, ht]; exact .error c
  · split
    · exact endPayload_same h
    · exact .error _

theorem instrBody_same (h : s.SameDefined t) (i : Instr) : SameResult (instrBody i s) (instrBody i t) := by
  cases i with
  | init => exact .ok h.openSession
  | ldleaf val => exact loadRecord_same h _
  | ldint hasL left hasR right => exact loadRecord_same h _
  | build => exact buildBody_same h
  | enc val => exact encBody_same h val
  | flush => exact flushBody_same h
  | setpad pad => exact setpadBody_same h pad
  | decb val => exact decbBody_same h val
  | decend => exact decendBody_same h

/-! ### Commands, words and steps -/

/-- Two outcomes are alike: states that agree, or the same refusal. -/
def SameOutcome (x y : Outcome) : Prop :=
  (∃ u v, x = .next u ∧ y = .next v ∧ u.SameDefined v) ∨ ∃ r, x = .refused r ∧ y = .refused r

theorem SameOutcome.next {u v : State} (h : u.SameDefined v) : SameOutcome (.next u) (.next v) :=
  .inl ⟨u, v, rfl, rfl, h⟩

theorem raiseFault_same (h : s.SameDefined t) (c : ErrCode) (w : Word) :
    SameOutcome (raiseFault c w s) (raiseFault c w t) := by
  by_cases hf : s.phase = .fault
  · rw [raiseFault_in_fault hf, raiseFault_in_fault (h.phase_eq.trans hf)]
    exact .next h
  · rw [raiseFault_of_ne hf, raiseFault_of_ne (h.phase_eq ▸ hf)]
    exact .next (h.enterFault c w)

theorem runCommand_same (h : s.SameDefined t) {body : State → Except ErrCode State}
    (hbody : SameResult (body s) (body t)) (w : Word) (acc : List Phase) :
    SameOutcome (runCommand w acc body s) (runCommand w acc body t) := by
  unfold runCommand
  rw [h.phase_eq]
  split
  · exact .next h
  · split
    · obtain ⟨u, v, hu, hv, huv⟩ | ⟨c, hs, ht⟩ := hbody
      · rw [hu, hv]; exact .next huv
      · rw [hs, ht]; exact raiseFault_same h c w
    · exact raiseFault_same h .seq w

theorem exec_same (h : s.SameDefined t) (i : Instr) : SameOutcome (exec i s) (exec i t) := by
  by_cases hi : i = .init
  · subst hi
    exact .next h.openSession
  · by_cases hw : i.wf = true
    · rw [exec_eq_runCommand hi hw, exec_eq_runCommand hi hw]
      exact runCommand_same h (instrBody_same h i) _ _
    · rw [exec_of_not_wf hw, exec_of_not_wf hw]
      exact raiseFault_same h _ _

theorem runWord_same (h : s.SameDefined t) (w : Word) : SameOutcome (runWord w s) (runWord w t) := by
  unfold runWord
  split
  · exact exec_same h _
  · exact raiseFault_same h _ _

theorem readOut_same (h : s.SameDefined t) (a : Nat) : (s.readOut a).SameDefined (t.readOut a) := by
  unfold State.readOut
  rw [h.resultByte_eq]
  obtain ⟨m, o, rfl⟩ := h.eq_with
  obtain ⟨-, hnode, hout⟩ := h
  split
  · exact ⟨rfl, hnode, hout⟩
  · exact ⟨rfl, hnode, hout⟩

theorem serve_same (h : s.SameDefined t) (a : HostAccess) : SameOutcome (serve a s) (serve a t) := by
  cases a with
  | regWrite off w =>
    simp only [serve, writeReg]
    split
    · split
      · exact runWord_same h w
      · exact .next h
    · exact .inr ⟨_, rfl, rfl⟩
  | regRead off =>
    simp only [serve, h.regValue_eq]
    obtain ⟨m, o, rfl⟩ := h.eq_with
    obtain ⟨-, hnode, hout⟩ := h
    split
    · exact .next ⟨rfl, hnode, hout⟩
    · exact .inr ⟨_, rfl, rfl⟩
  | outRead addr => exact .next (readOut_same h addr)
  | reset => exact .next h.openSession

theorem step_same (h : s.SameDefined t) : SameOutcome (step s) (step t) := by
  unfold step serveNext
  rw [h.bus_eq]
  split
  · exact .next h
  · exact serve_same h.takeAccess _

end Alike

/-- Settles O54: the two steps answer alike. -/
theorem unspecifiedContentsDoNotFlow : Obligations.UnspecifiedContentsDoNotFlow := by
  unfold Obligations.UnspecifiedContentsDoNotFlow
  intro s t h
  obtain ⟨u, v, hs, ht, huv⟩ | ⟨r, hs, ht⟩ := step_same h
  · rw [hs, ht]
    exact ⟨fun s' hnext => ⟨v, rfl, Host.Outcome.next.inj hnext ▸ huv⟩, fun r hr => nomatch hr⟩
  · rw [hs, ht]
    exact ⟨fun s' hnext => (nomatch hnext), fun r' hr => hr⟩

end Sys2Proof.Machine
end

section
/-! SUPPORT. An encode session computes pack of the concatenated codes (41_encode_pack R72 to R75): after every ENC, OUT
and the pending bits hold the bits encoded so far (10_state R19), and FLUSH completes the last byte. -/

namespace Sys2Proof.Machine

open Sys2Proof

/-! ### Whole bytes of a bit string (R9, 41 R72) -/

theorem flatMap_bits8_length (bytes : List Byte) : (bytes.flatMap bits8).length = 8 * bytes.length := by
  induction bytes with
  | nil => rfl
  | cons b bytes ih => rw [List.flatMap_cons, List.length_append, bits8_length, ih, List.length_cons]; omega

theorem wholeBytes_succ (nb : Nat) (bits : BitString) :
    wholeBytes (nb + 1) bits = wholeBytes nb bits ++ [byte8 ((bits.drop (8 * nb)).take 8)] := by
  simp [wholeBytes, List.range_succ]

/-- The whole bytes of a string hold its first bits. -/
theorem flatMap_bits8_wholeBytes {nb : Nat} {bits : BitString} (h : 8 * nb ≤ bits.length) :
    (wholeBytes nb bits).flatMap bits8 = bits.take (8 * nb) := by
  induction nb with
  | zero => simp [wholeBytes]
  | succ nb ih =>
    have hlen : ((bits.drop (8 * nb)).take 8).length = 8 := by rw [List.length_take, List.length_drop]; omega
    rw [wholeBytes_succ, List.flatMap_append, ih (by omega), List.flatMap_singleton, bits8_byte8 hlen, Nat.mul_succ,
      List.take_add]

theorem wholeBytes_bits8_append (nb : Nat) (b : Byte) (bits : BitString) :
    wholeBytes (nb + 1) (bits8 b ++ bits) = b :: wholeBytes nb bits := by
  have hhead : byte8 (((bits8 b ++ bits).drop (8 * 0)).take 8) = b := by simp
  have htail : ∀ j, (bits8 b ++ bits).drop (8 * (j + 1)) = bits.drop (8 * j) := fun j => by
    rw [Nat.mul_succ, Nat.add_comm, ← List.drop_drop, List.drop_left' (bits8_length b)]
  simp only [wholeBytes, List.range_succ_eq_map, List.map_cons, List.map_map, Function.comp_def, hhead, htail]

/-- Cutting the bits of some bytes gives these bytes. -/
theorem wholeBytes_flatMap_bits8 (bytes : List Byte) : wholeBytes bytes.length (bytes.flatMap bits8) = bytes := by
  induction bytes with
  | nil => rfl
  | cons b bytes ih => rw [List.flatMap_cons, List.length_cons, wholeBytes_bits8_append, ih]

/-- The padding count of R72. -/
theorem pack_pad (bits : BitString) : (pack bits).2 = (8 - bits.length % 8) % 8 := rfl

/-- The bytes packed are those whose bits are the string and its padding (R72). -/
theorem pack_bytes {bits : BitString} {bytes : List Byte}
    (h : bits ++ List.replicate (pack bits).2 false = bytes.flatMap bits8) : (pack bits).1 = bytes := by
  have hlen : (bytes.flatMap bits8).length / 8 = bytes.length := by rw [flatMap_bits8_length]; omega
  calc (pack bits).1
      = wholeBytes ((bits ++ List.replicate (pack bits).2 false).length / 8)
          (bits ++ List.replicate (pack bits).2 false) := rfl
    _ = bytes := by rw [h, hlen, wholeBytes_flatMap_bits8]

/-! ### The partial byte (R19) -/

theorem bits8_leftAligned {rest : BitString} (h : rest.length ≤ 8) :
    bits8 (leftAligned rest) = rest ++ List.replicate (8 - rest.length) false :=
  bits8_byte8 (by simp; omega)

theorem State.pending_length (s : State) : s.pending.length = s.accn.toNat := by
  have := s.accn.isLt
  rw [State.pending, List.length_take, bits8_length]
  omega

/-- What an ENC leaves pending is what its whole bytes leave. -/
theorem State.packBits_pending (s : State) (bits : BitString) :
    (s.packBits bits).pending = bits.drop (8 * (bits.length / 8)) := by
  have hlen := length_drop_wholeBytes bits
  rw [State.pending, State.packBits_accn_toNat, State.packBits_acc, bits8_leftAligned (by omega),
    List.take_left' hlen]

/-- Under the invariant the partial byte is the pending bits, filled with zeros: already the padded last byte. -/
theorem State.Inv.bits8_acc {s : State} (h : s.Inv) :
    bits8 s.acc = s.pending ++ List.replicate (8 - s.accn.toNat) false := by
  have hfill : (bits8 s.acc).drop s.accn.toNat = List.replicate (8 - s.accn.toNat) false := by
    refine List.eq_replicate_iff.mpr ⟨by simp, fun b hb => ?_⟩
    obtain ⟨k, hk⟩ := List.mem_iff_getElem?.mp hb
    rw [List.getElem?_drop] at hk
    have hlt : s.accn.toNat + k < 8 := by
      have := (List.getElem?_eq_some_iff.mp hk).1
      rwa [bits8_length] at this
    rw [bits8_getElem? _ hlt] at hk
    rw [← Option.some.inj hk, h.accZeroFilled _ (by omega)]
  rw [← hfill, State.pending, List.take_append_drop]

/-! ### The bits encoded so far -/

theorem State.OutIs.putOuts {s : State} {bytes bs : List Byte} (h : s.OutIs bytes)
    (hroom : s.ocnt.toNat + bs.length ≤ s.outCap.toNat) : (s.putOuts bs).OutIs (bytes ++ bs) := by
  obtain ⟨hocnt, hread⟩ := h
  refine ⟨by rw [State.putOuts_ocnt_toNat hroom, hocnt, List.length_append], fun k hk => ?_⟩
  rw [List.length_append] at hk
  rw [State.putOuts_read hroom, hocnt]
  by_cases hnew : bytes.length ≤ k
  · rw [if_pos ⟨hnew, by omega⟩, List.getElem?_append_right hnew]
  · rw [if_neg (by omega), List.getElem?_append_left (by omega), hread k (by omega)]

/-- OUT and the pending bits hold these bits (R19). -/
def State.Encoded (s : State) (bits : BitString) : Prop :=
  ∃ bytes, s.OutIs bytes ∧ bytes.flatMap bits8 ++ s.pending = bits

theorem State.Encoded.length {s : State} {bits : BitString} (h : s.Encoded bits) :
    8 * s.ocnt.toNat + s.accn.toNat = bits.length := by
  obtain ⟨bytes, ⟨hocnt, -⟩, rfl⟩ := h
  rw [List.length_append, flatMap_bits8_length, State.pending_length, hocnt]

/-- In READY nothing is encoded. -/
theorem State.Inv.encoded_nil {s : State} (h : s.Inv) (hphase : s.phase = .ready) : s.Encoded [] := by
  obtain ⟨-, haccn⟩ := h.packerIdle (by simp [hphase]) (by simp [hphase])
  obtain ⟨hocnt, -⟩ := h.countersFresh (.inr hphase)
  exact ⟨[], ⟨by simp [hocnt], fun k hk => absurd hk (Nat.not_lt_zero k)⟩, by simp [State.pending, haccn]⟩

/-- ENC appends the code to the bits encoded (R73). -/
theorem State.Encoded.packBits {s : State} {bits code : BitString} (h : s.Encoded bits)
    (hroom : s.ocnt.toNat + (s.pending ++ code).length / 8 ≤ s.outCap.toNat) :
    (s.packBits (s.pending ++ code)).Encoded (bits ++ code) := by
  obtain ⟨bytes, hout, rfl⟩ := h
  have hout' := hout.putOuts (bs := wholeBytes ((s.pending ++ code).length / 8) (s.pending ++ code))
    (by rwa [wholeBytes_length])
  refine ⟨_, hout', ?_⟩
  rw [State.packBits_pending, List.flatMap_append, flatMap_bits8_wholeBytes (by omega), List.append_assoc,
    List.take_append_drop, List.append_assoc]

theorem State.Encoded.room {s : State} {bits code : BitString} (h : s.Encoded bits)
    (hroom : (bits ++ code).length / 8 ≤ s.outCap.toNat) :
    s.ocnt.toNat + (s.pending ++ code).length / 8 ≤ s.outCap.toNat := by
  have hlen := h.length
  rw [List.length_append] at hroom ⊢
  rw [State.pending_length]
  omega

/-! ### The session (R75) -/

theorem execAll_cons {i : Instr} {s t : State} (h : exec i s = .next t) (rest : List Instr) :
    execAll (i :: rest) s = execAll rest t := by
  rw [execAll, h]

theorem execAll_append {is : List Instr} {s t : State} (h : execAll is s = .next t) (rest : List Instr) :
    execAll (is ++ rest) s = execAll rest t := by
  induction is generalizing s with
  | nil => rw [Host.Outcome.next.inj h, List.nil_append]
  | cons i is ih =>
    obtain ⟨u, hu⟩ := exec_answers i s
    rw [execAll_cons hu] at h
    rw [List.cons_append, execAll_cons hu, ih h]

theorem State.stream_congr {s t : State} (h : t.code = s.code) : t.stream = s.stream := by
  funext symbols; simp only [State.stream, State.codeAt, h]

theorem State.stream_cons {s : State} {v : Byte} {e : CodeEntry} (h : s.codeAt v = some e) (rest : List Byte) :
    s.stream (v :: rest) = e.bits ++ s.stream rest := by
  simp [State.stream, h]

/-- What every moment of an encode session keeps, once `bits` are encoded. -/
structure State.Encoding (s : State) (bits : BitString) : Prop where
  inv : s.Inv
  phase : s.phase = .ready ∨ s.phase = .enc
  encoded : s.Encoded bits

theorem State.Encoding.phase_ne_fault {s : State} {bits : BitString} (h : s.Encoding bits) : s.phase ≠ .fault :=
  (ne_of_ready_or_enc h.phase).2.2

theorem State.Encoding.enc {s : State} {bits : BitString} (h : s.Encoding bits) {v : Byte} {e : CodeEntry}
    (he : s.codeAt v = some e) (hroom : (bits ++ e.bits).length / 8 ≤ s.outCap.toNat) :
    exec (.enc v) s = .next (s.packBits (s.pending ++ e.bits)) ∧
      (s.packBits (s.pending ++ e.bits)).Encoding (bits ++ e.bits) := by
  have hroom' := h.encoded.room hroom
  exact ⟨runCommand_ok h.phase_ne_fault (by simpa using h.phase) (encBody_of_room he hroom') _,
    h.inv.packBits h.phase hroom', .inr rfl, h.encoded.packBits hroom'⟩

/-- Encoding symbols that have codes, with room, appends their codes and counts them. -/
theorem State.Encoding.encAll {s : State} {bits : BitString} (h : s.Encoding bits) {symbols : List Byte}
    (hvalid : ∀ v, v ∈ symbols → s.codeValid v = true)
    (hroom : (bits ++ s.stream symbols).length / 8 ≤ s.outCap.toNat) :
    ∃ t, execAll (symbols.map .enc) s = .next t ∧ t.Encoding (bits ++ s.stream symbols) ∧
      t.icnt = s.icnt + BitVec.ofNat 32 symbols.length ∧ t.outCap = s.outCap := by
  induction symbols generalizing s bits with
  | nil => exact ⟨s, rfl, by simpa [State.stream] using h, by simp, rfl⟩
  | cons v rest ih =>
    obtain ⟨e, he⟩ := Option.isSome_iff_exists.mp (hvalid v List.mem_cons_self)
    rw [State.stream_cons he, ← List.append_assoc] at hroom ⊢
    obtain ⟨hexec, hnext⟩ := h.enc he (by rw [List.length_append] at hroom; omega)
    have hstream := State.stream_congr (s.packBits_code (s.pending ++ e.bits))
    obtain ⟨t, ht, hencoding, hicnt, hcap⟩ := ih hnext
      (fun u hu => by simpa [State.codeValid, State.codeAt] using hvalid u (List.mem_cons_of_mem v hu))
      (by rwa [hstream, State.packBits_outCap])
    refine ⟨t, by rw [List.map_cons, execAll_cons hexec, ht], hstream ▸ hencoding, ?_, by simpa using hcap⟩
    rw [hicnt, State.packBits_icnt, List.length_cons]
    bv_omega

/-- FLUSH completes the last byte: OUT is pack of the bits encoded (R74, R75). -/
theorem State.Encoding.flush {s : State} {bits : BitString} (h : s.Encoding bits)
    (hroom : (bits.length + 7) / 8 ≤ s.outCap.toNat) :
    ∃ t, exec .flush s = .next t ∧ t.phase = .doneE ∧ t.OutIs (pack bits).1 ∧ t.pad.toNat = (pack bits).2 ∧
      t.ocnt.toNat = (bits.length + 7) / 8 ∧ t.icnt = s.icnt := by
  have hlen := h.encoded.length
  have haccn := s.accn.isLt
  obtain ⟨bytes, hout, hbits⟩ := h.encoded
  have hrun : ∀ t, flushBody s = .ok t → exec .flush s = .next t := fun t hbody =>
    runCommand_ok h.phase_ne_fault (by simpa using h.phase) hbody _
  by_cases hidle : s.accn = 0
  · have hzero : s.accn.toNat = 0 := by rw [hidle]; rfl
    have hpad : (pack bits).2 = 0 := by rw [pack_pad]; omega
    have hbytes : (pack bits).1 = bytes := pack_bytes (by
      rw [hpad, ← hbits, State.pending, hzero]; simp)
    refine ⟨_, hrun _ (flushBody_of_idle hidle), rfl, hbytes ▸ hout, hpad.symm, ?_, rfl⟩
    show s.ocnt.toNat = _
    omega
  · have hpos : s.accn.toNat ≠ 0 := fun h0 => hidle (BitVec.eq_of_toNat_eq h0)
    have hroom1 : s.ocnt.toNat + 1 ≤ s.outCap.toNat := by omega
    have hpad : (pack bits).2 = 8 - s.accn.toNat := by rw [pack_pad]; omega
    have hbytes : (pack bits).1 = bytes ++ [s.acc] := pack_bytes (by
      rw [hpad, ← hbits, List.append_assoc, ← h.inv.bits8_acc, List.flatMap_append, List.flatMap_singleton])
    refine ⟨_, hrun _ (flushBody_of_room hidle hroom1), rfl, ?_, ?_, ?_, rfl⟩
    · rw [hbytes]
      exact hout.putOuts (bs := [s.acc]) hroom1
    · show (BitVec.ofNat 3 _).toNat = _
      rw [hpad, BitVec.toNat_ofNat]
      omega
    · show (s.putOut s.acc).ocnt.toNat = _
      rw [State.putOut_ocnt_toNat hroom1]
      omega

/-- Settles O56: the ENCs by induction on the symbols, then FLUSH. -/
theorem encodeSessionPacks : Obligations.EncodeSessionPacks := by
  unfold Obligations.EncodeSessionPacks
  intro s symbols hs hphase hvalid hroom
  have hstart : s.Encoding [] := ⟨hs, .inl hphase, hs.encoded_nil hphase⟩
  obtain ⟨t, ht, hencoding, hicnt, hcap⟩ := hstart.encAll hvalid (by rw [List.nil_append]; omega)
  rw [List.nil_append] at hencoding
  obtain ⟨u, hu, hphase', hout, hpad, hocnt, hicnt'⟩ := hencoding.flush (by rwa [hcap])
  constructor
  · obtain ⟨bytes, hbytes, hbits⟩ := hencoding.encoded
    exact ⟨t, bytes, ht, hbytes, hbits, hencoding.encoded.length⟩
  · refine ⟨u, by rw [execAll_append ht, execAll_cons hu]; rfl, hphase', hout, hpad, hocnt, ?_⟩
    rw [hicnt', hicnt, (hs.countersFresh (.inr hphase)).2]
    simp

end Sys2Proof.Machine
end

section
/-! SUPPORT. Proofs of the memory family (20_memory): misaligned accesses (R38), the byte view of REG (R37), host reads of
OUT (R46), and that the tree is fixed outside LOAD (R43). -/

namespace Sys2Proof.Machine

open Sys2Proof

/-! ### REG accesses and bytes (R37, R38) -/

/-- Settles O13: the access is served, and its alignment test fails. -/
theorem misalignedAccessRefused : Obligations.MisalignedAccessRefused := by
  unfold Obligations.MisalignedAccessRefused
  intro s off rest hoff
  have hmis : ¬ regAligned off = true := mt (regAligned_iff off).mp hoff
  refine ⟨fun w hbus => ?_, fun hbus => ?_⟩
  · rw [step_of_bus_cons hbus, serve, if_neg hmis]
  · rw [step_of_bus_cons hbus, serve, if_neg hmis]

/-- Clearing the two low bits of a byte address gives the address of its word. -/
theorem toNat_and_wordMask (addr : BitVec 8) : (addr &&& 0xFC).toNat = 4 * (addr.toNat / 4) := by
  have hshift : addr &&& (0xFC : BitVec 8) = (addr >>> 2) <<< 2 := by
    refine BitVec.eq_of_getLsbD_eq fun i hi => ?_
    interval_cases i <;> simp
  rw [hshift, BitVec.toNat_shiftLeft, BitVec.toNat_ushiftRight, Nat.shiftLeft_eq, Nat.shiftRight_eq_div_pow]
  omega

/-- A byte of REG is a byte of the word its address lies in. -/
theorem State.regByte_toNat (s : State) (addr : BitVec 8) :
    (s.regByte addr).toNat = (s.regValue (addr &&& 0xFC)).toNat / 2 ^ (8 * (addr.toNat % 4)) % 256 := by
  rw [State.regByte, BitVec.extractLsb'_toNat, Nat.shiftRight_eq_div_pow]

/-- Settles O15: the address `off + k` lies in the word at `off`, at place `k`. -/
theorem registerBytesLittleEndian : Obligations.RegisterBytesLittleEndian := by
  unfold Obligations.RegisterBytesLittleEndian
  intro s off k halign hk
  have haddr : (off + BitVec.ofNat 8 k).toNat = off.toNat + k := by
    rw [BitVec.toNat_add, BitVec.toNat_ofNat]
    omega
  have hword : (off + BitVec.ofNat 8 k) &&& 0xFC = off := by
    apply BitVec.eq_of_toNat_eq
    rw [toNat_and_wordMask, haddr]
    omega
  have hplace : (off.toNat + k) % 4 = k := by omega
  rw [State.regByte_toNat, hword, haddr, hplace]

/-! ### Host reads of OUT (R46) -/

theorem State.done_iff (s : State) : s.done = true ↔ s.phase = .doneE ∨ s.phase = .doneD := by
  simp [State.done]

theorem State.resultByte_of_done {s : State} {a : Nat} (hdone : s.phase = .doneE ∨ s.phase = .doneD)
    (ha : a < s.ocnt.toNat) : s.resultByte a = Memory.read s.out a := by
  rw [State.resultByte, (s.done_iff).mpr hdone, decide_eq_true ha, Bool.and_self, if_pos rfl]

theorem State.resultByte_outside_result {s : State} {a : Nat}
    (h : ¬ ((s.phase = .doneE ∨ s.phase = .doneD) ∧ a < s.ocnt.toNat)) : s.resultByte a = none := by
  rw [State.resultByte, if_neg]
  rwa [Bool.and_eq_true, decide_eq_true_iff, State.done_iff]

theorem State.readOut_of_some {s : State} {a : Nat} {b : Byte} (h : s.resultByte a = some b) :
    s.readOut a = { s with reply := .byte b } := by
  rw [State.readOut, h]

theorem State.readOut_of_none {s : State} {a : Nat} (h : s.resultByte a = none) :
    s.readOut a = { s with reply := .byte (Config.freeByte s.draws), draws := s.draws + 1 } := by
  rw [State.readOut, h]

theorem step_outRead {s : State} {a : Nat} {rest : List HostAccess} (h : s.bus = .outRead a :: rest) :
    step s = .next ({ s with bus := rest, reply := .none }.readOut a) := step_of_bus_cons h

/-- Settles O14: the read is served in the state without the access, which holds the same result. -/
theorem outReads : Obligations.OutReads := by
  unfold Obligations.OutReads
  intro s a rest hbus
  rw [step_outRead hbus]
  refine ⟨fun b hdone ha hread => ?_, fun houtside => ?_⟩
  · exact congrArg Host.Outcome.next (State.readOut_of_some ((State.resultByte_of_done hdone ha).trans hread))
  · exact congrArg Host.Outcome.next (State.readOut_of_none (State.resultByte_outside_result houtside))

/-! ### The tree outside LOAD (R43) -/

/-- `t` holds the tree and the code table of `s`. -/
def State.SameTree (s t : State) : Prop := t.node = s.node ∧ t.nnodes = s.nnodes ∧ t.code = s.code

/-- The writers of NODE, `nnodes` and CODE other than INIT are accepted in LOAD alone (R12, R43, R100). -/
theorem exec_keeps_tree {i : Instr} {s t : State} (h : exec i s = .next t) (hi : i ≠ .init)
    (hnotLoad : acceptedIn i ≠ [.load]) : s.SameTree t := by
  obtain ⟨-, -, -, -, hnnodes, -, -, hnode, hcode, -⟩ := onlyTheNamedWriters i s t h
  refine ⟨by_contra fun hne => ?_, by_contra fun hne => ?_, by_contra fun hne => ?_⟩
  · obtain ⟨v, rfl⟩ | ⟨hasL, left, hasR, right, rfl⟩ := hnode hne
    · exact hnotLoad rfl
    · exact hnotLoad rfl
  · obtain rfl | ⟨v, rfl⟩ | ⟨hasL, left, hasR, right, rfl⟩ := hnnodes hne
    · exact hi rfl
    · exact hnotLoad rfl
    · exact hnotLoad rfl
  · obtain rfl | rfl := hcode hne
    · exact hi rfl
    · exact hnotLoad rfl

/-- Outside LOAD a command opens a session or keeps the tree. -/
theorem exec_opens_or_keeps_tree {i : Instr} {s t : State} (h : exec i s = .next t) (hs : s.phase ≠ .load) :
    t = s.openSession ∨ s.SameTree t := by
  rcases exec_cases h with ⟨-, rfl⟩ | ⟨-, -, rfl⟩ | ⟨-, -, c, -, rfl⟩ | ⟨hi, -, hacc, -⟩
  · exact .inl rfl
  · exact .inr ⟨rfl, rfl, rfl⟩
  · exact .inr ⟨rfl, rfl, rfl⟩
  · exact .inr (exec_keeps_tree h hi fun hload => hs (List.mem_singleton.mp (hload ▸ hacc)))

/-- Outside LOAD a step opens a session or keeps the tree. -/
theorem step_opens_or_keeps_tree {s t : State} (h : step s = .next t) (hs : s.phase ≠ .load) :
    t = s.takeAccess.openSession ∨ s.SameTree t := by
  rcases step_cases h with ⟨-, rfl⟩ | ⟨w, -, -, hrun⟩ | ⟨-, -, rfl⟩ | ⟨a, rest, -, -, -, ht⟩
  · exact .inr ⟨rfl, rfl, rfl⟩
  · rcases runWord_cases hrun with ⟨i, -, hexec⟩ | ⟨-, -, ⟨-, rfl⟩ | ⟨-, rfl⟩⟩
    · exact exec_opens_or_keeps_tree hexec hs
    · exact .inr ⟨rfl, rfl, rfl⟩
    · exact .inr ⟨rfl, rfl, rfl⟩
  · exact .inl rfl
  · rw [ht]; exact .inr ⟨rfl, rfl, rfl⟩

/-- Settles O53: the start of a session leaves NODE, and every other step the whole tree. -/
theorem treeFixedAfterBuild : Obligations.TreeFixedAfterBuild := by
  unfold Obligations.TreeFixedAfterBuild
  intro s t hs h
  rcases step_opens_or_keeps_tree h hs with rfl | ⟨hnode, htree⟩
  · exact ⟨rfl, .inl (State.openSession_fresh _)⟩
  · exact ⟨hnode, .inr htree⟩

end Sys2Proof.Machine
end

section
/-! SUPPORT. Proofs of the encoding family (30_encoding). A word is read field by field: each format of R48 to R51 decodes
exactly when bits [23:0] are that format's operand bits, so a word decodes to a command exactly when it is the
command's word; operands, masks and both directions of the code follow from that. -/

namespace Sys2Proof

/-! ### Fields of a word (00_scope R7) -/

theorem append_inj_iff {m n : Nat} {a c : BitVec m} {b d : BitVec n} : a ++ b = c ++ d ↔ a = c ∧ b = d := by
  refine ⟨fun h => ⟨?_, ?_⟩, fun ⟨ha, hb⟩ => by rw [ha, hb]⟩
  · simpa only [BitVec.extractLsb'_append_eq_left] using congrArg (BitVec.extractLsb' n m) h
  · simpa only [BitVec.extractLsb'_append_eq_right] using congrArg (BitVec.extractLsb' 0 n) h

/-- A field is its upper part followed by its lower part. -/
theorem bitField_split (w : Word) (lo m n : Nat) : bitField w lo (m + n) = bitField w (lo + n) m ++ bitField w lo n :=
  (BitVec.extractLsb'_append_extractLsb'_eq_extractLsb' rfl).symm

theorem bitField_eq_append_iff (w : Word) (lo : Nat) {m n : Nat} (a : BitVec m) (b : BitVec n) :
    bitField w lo (m + n) = a ++ b ↔ bitField w (lo + n) m = a ∧ bitField w lo n = b := by
  rw [bitField_split, append_inj_iff]

/-- A mask over the upper part of a field fixes that part. -/
theorem bitField_and_fixed_iff (w : Word) (lo : Nat) {m n : Nat} (a : BitVec m) (mask b : BitVec n) :
    bitField w lo (m + n) &&& (BitVec.allOnes m ++ mask) = a ++ b ↔
      bitField w (lo + n) m = a ∧ bitField w lo n &&& mask = b := by
  rw [bitField_split, BitVec.and_append, append_inj_iff, BitVec.and_allOnes]

/-- A mask that leaves the upper part of a field out leaves that part free. -/
theorem bitField_and_free_iff (w : Word) (lo m : Nat) {n : Nat} (mask b : BitVec n) :
    bitField w lo (m + n) &&& (0#m ++ mask) = 0#m ++ b ↔ bitField w lo n &&& mask = b := by
  rw [bitField_split, BitVec.and_append, append_inj_iff, BitVec.and_zero]
  exact and_iff_right rfl

theorem bitField_whole (w : Word) : bitField w 0 32 = w := BitVec.extractLsb'_eq_self

theorem bitField_toNat (w : Word) (lo n : Nat) : (bitField w lo n).toNat = w.toNat / 2 ^ lo % 2 ^ n := by
  rw [bitField, BitVec.extractLsb'_toNat, Nat.shiftRight_eq_div_pow]

theorem bitField_zero_toNat (w : Word) (n : Nat) : (bitField w 0 n).toNat = w.toNat % 2 ^ n := by
  rw [bitField_toNat, pow_zero, Nat.div_one]

theorem bitField_eq_zero_iff (w : Word) (lo n : Nat) : bitField w lo n = 0 ↔ w.toNat / 2 ^ lo % 2 ^ n = 0 := by
  rw [← bitField_toNat, ← BitVec.toNat_inj]
  exact Iff.rfl

/-- A field of one bit is that bit. -/
theorem bitField_one (w : Word) (k : Nat) : bitField w k 1 = BitVec.ofBool (w.getLsbD k) := by
  refine BitVec.eq_of_getLsbD_eq fun i hi => ?_
  obtain rfl : i = 0 := by omega
  simp [bitField]

theorem getLsbD_toNat (w : Word) (k : Nat) : (w.getLsbD k).toNat = w.toNat / 2 ^ k % 2 := by
  rw [← BitVec.toNat_ofBool, ← bitField_one, bitField_toNat, pow_one]

/-! ### What each format decodes (30_encoding R48 to R51) -/

theorem whenReservedZero_eq_ok_iff {zero : Bool} {x : Except Illegal Instr} {i : Instr} :
    whenReservedZero zero x = .ok i ↔ zero = true ∧ x = .ok i := by
  cases zero <;> simp [whenReservedZero]

theorem decodeN_eq_ok_iff {w : Word} {i j : Instr} : decodeN w i = .ok j ↔ bitField w 0 24 = 0 ∧ i = j := by
  rw [decodeN, whenReservedZero_eq_ok_iff, beq_iff_eq, Except.ok.injEq]

theorem decodeV_eq_ok_iff {w : Word} {f : Byte → Instr} {j : Instr} :
    decodeV w f = .ok j ↔ bitField w 8 16 = 0 ∧ f (bitField w 0 8) = j := by
  rw [decodeV, whenReservedZero_eq_ok_iff, beq_iff_eq, Except.ok.injEq]

theorem decodeP_eq_ok_iff {w : Word} {f : BitVec 3 → Instr} {j : Instr} :
    decodeP w f = .ok j ↔ bitField w 3 21 = 0 ∧ f (bitField w 0 3) = j := by
  rw [decodeP, whenReservedZero_eq_ok_iff, beq_iff_eq, Except.ok.injEq]

theorem decodeI_eq_ok_iff {w : Word} {j : Instr} :
    decodeI w = .ok j ↔ (bitField w 22 2 = 0 ∧ bitField w 10 2 = 0) ∧ j.wf = true ∧
      Instr.ldint (w.getLsbD 9) (bitField w 0 9) (w.getLsbD 21) (bitField w 12 9) = j := by
  rw [decodeI, whenReservedZero_eq_ok_iff, Bool.and_eq_true, beq_iff_eq, beq_iff_eq]
  refine and_congr_right fun _ => ?_
  split
  case isTrue hwf =>
    rw [Except.ok.injEq]
    exact ⟨fun h => ⟨h ▸ hwf, h⟩, And.right⟩
  case isFalse hwf => exact ⟨nofun, fun ⟨hj, h⟩ => absurd (h ▸ hj) hwf⟩

/-! ### Operand bits, field by field -/

theorem operandBitsV_iff {w : Word} {v : Byte} :
    bitField w 0 24 = 0#16 ++ v ↔ bitField w 8 16 = 0 ∧ bitField w 0 8 = v := bitField_eq_append_iff w 0 0#16 v

theorem operandBitsP_iff {w : Word} {p : BitVec 3} :
    bitField w 0 24 = 0#21 ++ p ↔ bitField w 3 21 = 0 ∧ bitField w 0 3 = p := bitField_eq_append_iff w 0 0#21 p

theorem operandBitsI_iff {w : Word} {hasL hasR : Bool} {left right : NodeIndex} :
    bitField w 0 24 = (Instr.ldint hasL left hasR right).operandBits ↔
      bitField w 22 2 = 0 ∧ w.getLsbD 21 = hasR ∧ bitField w 12 9 = right ∧
        bitField w 10 2 = 0 ∧ w.getLsbD 9 = hasL ∧ bitField w 0 9 = left := by
  rw [← BitVec.ofBool_eq_iff_eq (b := w.getLsbD 21), ← BitVec.ofBool_eq_iff_eq (b := w.getLsbD 9),
    ← bitField_one, ← bitField_one]
  refine (bitField_eq_append_iff w 0 (n := 22) 0#2 _).trans (and_congr_right fun _ => ?_)
  refine (bitField_eq_append_iff w 0 (n := 21) (BitVec.ofBool hasR) _).trans (and_congr_right fun _ => ?_)
  refine (bitField_eq_append_iff w 0 (n := 12) right _).trans (and_congr_right fun _ => ?_)
  refine (bitField_eq_append_iff w 0 (n := 10) 0#2 _).trans (and_congr_right fun _ => ?_)
  exact bitField_eq_append_iff w 0 (BitVec.ofBool hasL) left

/-! ### A word decodes to a command exactly when it is the command's word (R53, D28) -/

/-- How a word with the opcode of `i` is decoded: by the format of `i`. -/
def decodeAs : Instr → Word → Except Illegal Instr
  | .init, w => decodeN w .init
  | .ldleaf _, w => decodeV w .ldleaf
  | .ldint _ _ _ _, w => decodeI w
  | .build, w => decodeN w .build
  | .enc _, w => decodeV w .enc
  | .flush, w => decodeN w .flush
  | .setpad _, w => decodeP w .setpad
  | .decb _, w => decodeV w .decb
  | .decend, w => decodeN w .decend

theorem decode_eq_decodeAs {w : Word} {i : Instr} (h : bitField w 24 8 = i.opcode) : decode w = decodeAs i w := by
  rw [decode, h]
  cases i <;> rfl

/-- Only a word with a command's opcode decodes to the command. -/
theorem opcode_of_decode {w : Word} {i : Instr} (h : decode w = .ok i) : bitField w 24 8 = i.opcode := by
  unfold decode at h
  apply BitVec.eq_of_toNat_eq
  split at h
  case h_3 hop => obtain ⟨-, -, rfl⟩ := decodeI_eq_ok_iff.mp h; exact hop
  case h_7 hop => obtain ⟨-, rfl⟩ := decodeP_eq_ok_iff.mp h; exact hop
  case h_2 hop | h_5 hop | h_8 hop => obtain ⟨-, rfl⟩ := decodeV_eq_ok_iff.mp h; exact hop
  case h_1 hop | h_4 hop | h_6 hop | h_9 hop => obtain ⟨-, rfl⟩ := decodeN_eq_ok_iff.mp h; exact hop
  case h_10 => cases h

/-- A format decodes to a command exactly the words with the command's operand bits. -/
theorem decodeAs_eq_ok_iff {w : Word} {i : Instr} :
    decodeAs i w = .ok i ↔ i.wf = true ∧ bitField w 0 24 = i.operandBits := by
  cases i with
  | ldleaf v | enc v | decb v =>
    simp [decodeAs, decodeV_eq_ok_iff, Instr.wf, Instr.operandBits, operandBitsV_iff]
  | setpad p => simp [decodeAs, decodeP_eq_ok_iff, Instr.wf, Instr.operandBits, operandBitsP_iff]
  | ldint hasL left hasR right =>
    rw [decodeAs, decodeI_eq_ok_iff, operandBitsI_iff, Instr.ldint.injEq]
    tauto
  | init | build | flush | decend => simp [decodeAs, decodeN_eq_ok_iff, Instr.wf, Instr.operandBits]

theorem decode_eq_ok_iff_fields {w : Word} {i : Instr} :
    decode w = .ok i ↔ i.wf = true ∧ bitField w 24 8 = i.opcode ∧ bitField w 0 24 = i.operandBits := by
  constructor
  · intro h
    have hop := opcode_of_decode h
    rw [decode_eq_decodeAs hop, decodeAs_eq_ok_iff] at h
    obtain ⟨hwf, hbits⟩ := h
    exact ⟨hwf, hop, hbits⟩
  · rintro ⟨hwf, hop, hbits⟩
    rw [decode_eq_decodeAs hop, decodeAs_eq_ok_iff]
    exact ⟨hwf, hbits⟩

theorem encode_eq_iff {w : Word} {i : Instr} :
    encode i = w ↔ bitField w 24 8 = i.opcode ∧ bitField w 0 24 = i.operandBits := by
  have h := bitField_eq_append_iff w 0 i.opcode i.operandBits
  rwa [bitField_whole, eq_comm] at h

theorem decode_eq_ok_iff {w : Word} {i : Instr} : decode w = .ok i ↔ i.wf = true ∧ encode i = w := by
  rw [encode_eq_iff, decode_eq_ok_iff_fields]

/-- Settles O1: a well-formed command's word is the word that decodes to it. -/
theorem decodeOfEncode : Obligations.DecodeOfEncode := by
  unfold Obligations.DecodeOfEncode
  exact fun i hwf => decode_eq_ok_iff.mpr ⟨hwf, rfl⟩

/-- Settles O2: the other direction of the same equivalence. -/
theorem encodeOfDecode : Obligations.EncodeOfDecode := by
  unfold Obligations.EncodeOfDecode
  exact fun w i h => decode_eq_ok_iff.mp h

/-! ### Match and mask (R48 to R51) -/

/-- A value meets the mask of its upper part exactly when it is the match above some lower part. -/
theorem exists_eq_append_iff_and_mask {m n : Nat} (x : BitVec (m + n)) (a : BitVec m) :
    (∃ v : BitVec n, x = a ++ v) ↔ x &&& (BitVec.allOnes m ++ 0#n) = a ++ 0#n := by
  constructor
  · rintro ⟨v, rfl⟩
    rw [BitVec.and_append, BitVec.and_allOnes, BitVec.and_zero]
  · intro h
    rw [← BitVec.extractLsb'_append_extractLsb' (x := x), BitVec.and_append, BitVec.and_allOnes, append_inj_iff] at h
    exact ⟨x.extractLsb' 0 n, by rw [← h.1, BitVec.extractLsb'_append_extractLsb']⟩

theorem decode_eq_ok_iff_encode {w : Word} {i : Instr} (hwf : i.wf = true) : decode w = .ok i ↔ w = encode i := by
  rw [decode_eq_ok_iff, eq_comm (a := w)]
  exact and_iff_right hwf

/-- Format N: the whole word is fixed. -/
theorem decode_iff_maskN {w : Word} {i : Instr} (hwf : i.wf = true) :
    decode w = .ok i ↔ w &&& 0xFFFFFFFF = encode i := by
  rw [decode_eq_ok_iff_encode hwf, show (0xFFFFFFFF : Word) = BitVec.allOnes 32 from rfl, BitVec.and_allOnes]

/-- Format V: the byte is free. -/
theorem exists_decode_iff_maskV {w : Word} {f : Byte → Instr} {a : BitVec 24} (hwf : ∀ v, (f v).wf = true)
    (hf : ∀ v, encode (f v) = a ++ v) : (∃ v, decode w = .ok (f v)) ↔ w &&& 0xFFFFFF00 = a ++ 0#8 := by
  simp only [decode_eq_ok_iff_encode (hwf _), hf]
  exact exists_eq_append_iff_and_mask (m := 24) (n := 8) w a

/-- Format P: the three bits of the padding count are free. -/
theorem exists_decode_iff_maskP {w : Word} : (∃ p, decode w = .ok (.setpad p)) ↔ w &&& 0xFFFFFFF8 = 0x07000000 := by
  have hencode : ∀ p, encode (.setpad p) = 0x0E00000#29 ++ p := fun p =>
    (BitVec.append_assoc (x₁ := 7#8) (x₂ := 0#21) (x₃ := p)).symm
  simp only [decode_eq_ok_iff_encode (i := .setpad _) rfl, hencode]
  exact exists_eq_append_iff_and_mask (m := 29) (n := 3) w 0x0E00000#29

/-- Format I: the opcode and the two reserved pairs are fixed. -/
theorem and_maskI_iff (w : Word) :
    w &&& 0xFFC00C00 = 0x03000000 ↔ bitField w 24 8 = 3 ∧ bitField w 22 2 = 0 ∧ bitField w 10 2 = 0 := by
  conv_lhs => rw [← bitField_whole w]
  refine (bitField_and_fixed_iff w 0 (n := 24) 3#8 0xC00C00 0).trans (and_congr_right fun _ => ?_)
  refine (bitField_and_fixed_iff w 0 (n := 22) 0#2 0xC00 0).trans (and_congr_right fun _ => ?_)
  refine (bitField_and_free_iff w 0 10 (n := 12) 0xC00 0).trans ?_
  refine (bitField_and_fixed_iff w 0 (n := 10) 0#2 0 0).trans (and_iff_left ?_)
  exact BitVec.and_zero

theorem childFieldOk_iff {has : Bool} {idx : NodeIndex} : childFieldOk has idx = true ↔ has = true ∨ idx = 0 := by
  rw [childFieldOk, Bool.or_eq_true, beq_iff_eq]

/-- The fields of LDINT are those of its word. -/
theorem decode_ldint_iff {w : Word} {hasL hasR : Bool} {left right : NodeIndex} :
    decode w = .ok (.ldint hasL left hasR right) ↔
      (bitField w 24 8 = 3 ∧ bitField w 22 2 = 0 ∧ bitField w 10 2 = 0) ∧
      (childFieldOk hasL left = true ∧ childFieldOk hasR right = true) ∧
      w.getLsbD 9 = hasL ∧ bitField w 0 9 = left ∧ w.getLsbD 21 = hasR ∧ bitField w 12 9 = right := by
  rw [decode_eq_ok_iff_fields, operandBitsI_iff, Instr.wf, Instr.opcode, Bool.and_eq_true]
  tauto

/-- Format I: beside its mask, the index of an absent child is 0. -/
theorem exists_decode_iff_maskI {w : Word} :
    (∃ hasL left hasR right, decode w = .ok (.ldint hasL left hasR right)) ↔
      w &&& 0xFFC00C00 = 0x03000000 ∧ (w.getLsbD 9 = true ∨ w.toNat % 512 = 0) ∧
        (w.getLsbD 21 = true ∨ w.toNat / 4096 % 512 = 0) := by
  have hleft : bitField w 0 9 = 0 ↔ w.toNat % 512 = 0 := by simpa using bitField_eq_zero_iff w 0 9
  have hright : bitField w 12 9 = 0 ↔ w.toNat / 4096 % 512 = 0 := bitField_eq_zero_iff w 12 9
  rw [and_maskI_iff, ← hleft, ← hright, ← childFieldOk_iff, ← childFieldOk_iff]
  simp only [decode_ldint_iff]
  constructor
  · rintro ⟨_, _, _, _, hfixed, hok, rfl, rfl, rfl, rfl⟩
    exact ⟨hfixed, hok⟩
  · rintro ⟨hfixed, hok⟩
    exact ⟨_, _, _, _, hfixed, hok, rfl, rfl, rfl, rfl⟩

/-- Settles O3: format by format. -/
theorem matchAndMask : Obligations.MatchAndMask := by
  unfold Obligations.MatchAndMask
  have hencodeV : ∀ op v : Byte, op ++ (0#16 ++ v) = (op ++ 0#16) ++ v := fun _ _ => BitVec.append_assoc.symm
  intro w
  exact ⟨decode_iff_maskN rfl,
    exists_decode_iff_maskV (a := 0x020000) (fun _ => rfl) (hencodeV 2),
    exists_decode_iff_maskI,
    decode_iff_maskN rfl,
    exists_decode_iff_maskV (a := 0x050000) (fun _ => rfl) (hencodeV 5),
    decode_iff_maskN rfl,
    exists_decode_iff_maskP,
    exists_decode_iff_maskV (a := 0x080000) (fun _ => rfl) (hencodeV 8),
    decode_iff_maskN rfl⟩

/-! ### Operands (R52) -/

theorem val_of_decode {w : Word} {f : Byte → Instr} (hf : ∀ v, (f v).operandBits = 0#16 ++ v) {v : Byte}
    (h : decode w = .ok (f v)) : bitField w 0 8 = v := by
  obtain ⟨-, -, hbits⟩ := decode_eq_ok_iff_fields.mp h
  exact (operandBitsV_iff.mp (hbits.trans (hf v))).2

theorem pad_of_decode {w : Word} {p : BitVec 3} (h : decode w = .ok (.setpad p)) : bitField w 0 3 = p := by
  obtain ⟨-, -, hbits⟩ := decode_eq_ok_iff_fields.mp h
  exact (operandBitsP_iff.mp hbits).2

/-- Settles O4: the decoder reads each operand off as a field, and a field is a quotient and a remainder. -/
theorem operandFields : Obligations.OperandFields := by
  unfold Obligations.OperandFields
  intro w
  refine ⟨fun v h => ?_, fun p h => ?_, fun hasL left hasR right h => ?_⟩
  · have hval : bitField w 0 8 = v := by
      rcases h with h | h | h
      · exact val_of_decode (fun _ => rfl) h
      · exact val_of_decode (fun _ => rfl) h
      · exact val_of_decode (fun _ => rfl) h
    rw [← hval]
    exact bitField_zero_toNat w 8
  · rw [← pad_of_decode h]
    exact bitField_zero_toNat w 3
  · obtain ⟨-, -, rfl, rfl, rfl, rfl⟩ := decode_ldint_iff.mp h
    exact ⟨getLsbD_toNat w 9, bitField_zero_toNat w 9, getLsbD_toNat w 21, bitField_toNat w 12 9⟩

/-! ### The spec's words (95_test_vectors section 2) -/

/-- Settles O5: the decoder evaluated at each of the 26 words. -/
theorem specWordsDecode : Obligations.SpecWordsDecode := by
  unfold Obligations.SpecWordsDecode
  decide

end Sys2Proof

namespace Sys2Proof.Machine

open Sys2Proof

/-! ### What stands for no command faults (R50, R53, 60 R88 to R92) -/

theorem runWord_of_illegal {w : Word} {e : Illegal} (h : decode w = .error e) (s : State) :
    runWord w s = raiseFault .illcmd w s := by
  rw [runWord, h]

/-- Settles O8: the step serves the write to CMD, and the word enters FAULT. -/
theorem illegalWordFaults : Obligations.IllegalWordFaults := by
  unfold Obligations.IllegalWordFaults
  intro s w e rest hbus hdecode hphase
  rw [step_of_bus_cons hbus, serve_command, runWord_of_illegal hdecode]
  exact raiseFault_of_ne (s := { s with bus := rest, reply := .none }) hphase .illcmd w

theorem ldint_not_wf {hasL hasR : Bool} {left right : NodeIndex}
    (h : (hasL = false ∧ left ≠ 0) ∨ (hasR = false ∧ right ≠ 0)) :
    ¬ (Instr.ldint hasL left hasR right).wf = true := by
  rw [Instr.wf, Bool.and_eq_true, childFieldOk_iff, childFieldOk_iff]
  rintro ⟨hleft, hright⟩
  rcases h with ⟨rfl, hidx⟩ | ⟨rfl, hidx⟩
  · exact hidx (hleft.resolve_left Bool.false_ne_true)
  · exact hidx (hright.resolve_left Bool.false_ne_true)

/-- Settles O22: the term is ill-formed, so it takes the fault of its word. -/
theorem ldintAbsentChildIndex : Obligations.LdintAbsentChildIndex := by
  unfold Obligations.LdintAbsentChildIndex
  intro s hasL hasR left right habsent
  rw [exec_of_not_wf (ldint_not_wf habsent)]
  exact ⟨fun hf => raiseFault_of_ne hf .illcmd _, fun hf => raiseFault_in_fault hf .illcmd _⟩

end Sys2Proof.Machine
end

section
/-! SUPPORT. The commands of the tree and codes family (40_tree_and_codes): what INIT, the two loads and BUILD answer. -/

namespace Sys2Proof.Machine

open Sys2Proof

/-! ### INIT (R61) -/

/-- Settles O19: INIT opens a session, and opening a session again changes nothing. -/
theorem initOpensASession : Obligations.InitOpensASession := by
  unfold Obligations.InitOpensASession
  refine ⟨fun s => ⟨s.openSession, rfl, s.openSession_fresh, rfl, rfl, rfl, rfl, rfl, rfl, rfl⟩, ?_⟩
  exact congrArg Host.Outcome.next State.openSession_reset

/-! ### LDLEAF and LDINT (R62, R63) -/

/-- A load in LOAD with room appends its record. -/
theorem runCommand_load_of_room {s : State} (hphase : s.phase = .load) (hroom : s.nnodes.toNat < Config.nodeCap)
    (w : Word) (r : NodeRec) : runCommand w [.load] (loadRecord r) s = .next (s.pushNode r) :=
  runCommand_ok (by simp [hphase]) (by simp [hphase]) (loadRecord_of_room hroom r) w

/-- What a load with room leaves: one record more, the new one at the old `nnodes`, all else as before. -/
theorem State.pushNode_appends {s : State} (hroom : s.nnodes.toNat < Config.nodeCap) (r : NodeRec) :
    (s.pushNode r).nnodes.toNat = s.nnodes.toNat + 1 ∧
      (∀ i, Memory.read (s.pushNode r).node i = if i = s.nnodes.toNat then some r else Memory.read s.node i) ∧
      (s.pushNode r).nodeAt s.nnodes.toNat = r ∧
      { s.pushNode r with node := s.node, nnodes := s.nnodes } = s :=
  ⟨State.pushNode_nnodes_toNat hroom r, fun i => Memory.read_write s.node s.nnodes.toNat i r,
    by rw [State.pushNode_nodeAt hroom, if_pos rfl], rfl⟩

/-- Settles O20: a load with room. -/
theorem ldleafAppends : Obligations.LdleafAppends := by
  unfold Obligations.LdleafAppends
  intro s v hphase hroom
  exact ⟨_, runCommand_load_of_room hphase hroom _ _, State.pushNode_appends hroom _⟩

/-- Settles O21: a load with room, whose term is well-formed because an absent child's index is 0. -/
theorem ldintAppends : Obligations.LdintAppends := by
  unfold Obligations.LdintAppends
  intro s hasL hasR left right hphase hroom hleft hright
  have hwf : (Instr.ldint hasL left hasR right).wf = true := by
    rw [Instr.wf, Bool.and_eq_true, childFieldOk_iff, childFieldOk_iff]
    exact ⟨(Bool.eq_false_or_eq_true hasL).imp_right hleft, (Bool.eq_false_or_eq_true hasR).imp_right hright⟩
  exact ⟨_, (exec_eq_runCommand (by simp) hwf s).trans (runCommand_load_of_room hphase hroom _ _),
    State.pushNode_appends hroom _⟩

/-! ### BUILD (R68) -/

theorem buildBody_of_wf {s : State} (h : treeWF s.nnodes.toNat s.nodeAt = true) :
    buildBody s = .ok { s with code := buildCodes s.nnodes.toNat s.nodeAt s.code, phase := .ready } := if_pos h

theorem buildBody_of_not_wf {s : State} (h : treeWF s.nnodes.toNat s.nodeAt = false) : buildBody s = .error .tree :=
  if_neg (by rw [h]; decide)

theorem exec_build_of_wf {s : State} (hphase : s.phase = .load) (h : treeWF s.nnodes.toNat s.nodeAt = true) :
    exec .build s = .next { s with code := buildCodes s.nnodes.toNat s.nodeAt s.code, phase := .ready } :=
  runCommand_ok (by simp [hphase]) (by simp [hphase]) (buildBody_of_wf h) _

/-- BUILD is accepted in LOAD on a well-formed tree only, and answers its code table. -/
theorem exec_build_ready {s t : State} (h : exec .build s = .next t) (hready : t.phase = .ready) :
    s.phase = .load ∧ treeWF s.nnodes.toNat s.nodeAt = true ∧
      t = { s with code := buildCodes s.nnodes.toNat s.nodeAt s.code, phase := .ready } := by
  rcases exec_cases h with ⟨hi, -⟩ | ⟨-, hf, rfl⟩ | ⟨-, -, c, -, rfl⟩ | ⟨-, -, hload, hbody⟩
  · cases hi
  · rw [hf] at hready; cases hready
  · cases hready
  · exact ⟨by simpa [acceptedIn] using hload, buildBody_ok hbody⟩

/-- Settles O25: on a well-formed tree the body of BUILD answers, and writes CODE and the phase. -/
theorem buildCompletes : Obligations.BuildCompletes := by
  unfold Obligations.BuildCompletes
  intro s hphase hwf
  exact ⟨_, exec_build_of_wf hphase hwf, rfl, rfl⟩

/-- Settles O26: on any other tree the body of BUILD raises ERR_TREE, and the command frame enters the fault. -/
theorem buildRefusesOtherTrees : Obligations.BuildRefusesOtherTrees := by
  unfold Obligations.BuildRefusesOtherTrees
  intro s hphase hwf
  exact runCommand_error (by simp [hphase]) (by simp [hphase]) (buildBody_of_not_wf hwf) _

end Sys2Proof.Machine
end

section
/-! SUPPORT. What the tree check computes (40 R66), rule by rule, in the terms of R65: child slots and leaf values. -/

namespace Sys2Proof.Machine

open Sys2Proof

/-! ### Child slots (R65) -/

/-- The two sides of every record below `n`, whether a child stands there or not. -/
def slots (n : Nat) : List (Nat × Bool) := List.range n ×ˢ [false, true]

theorem mem_slots {n : Nat} {slot : Nat × Bool} : slot ∈ slots n ↔ slot.1 < n := by
  obtain ⟨i, side⟩ := slot
  simp [slots]

theorem slots_nodup (n : Nat) : (slots n).Nodup := List.nodup_range.product (by decide)

/-- The index of the child in a slot, if one stands there. -/
def childAt (node : Nat → NodeRec) (slot : Nat × Bool) : Option Nat := ((node slot.1).child slot.2).map BitVec.toNat

theorem childAt_eq_some_iff {node : Nat → NodeRec} {slot : Nat × Bool} {j : Nat} :
    childAt node slot = some j ↔ ∃ c, (node slot.1).child slot.2 = some c ∧ c.toNat = j := Option.map_eq_some_iff

theorem NodeRec.children_eq (r : NodeRec) :
    r.children = [false, true].filterMap fun side => (r.child side).map BitVec.toNat := by
  rw [NodeRec.children, List.map_filterMap]
  rfl

theorem NodeRec.mem_children_iff {r : NodeRec} {j : Nat} :
    j ∈ r.children ↔ ∃ side c, r.child side = some c ∧ c.toNat = j := by
  simp [NodeRec.children_eq]

/-- The children are read off slot by slot. -/
theorem allChildren_eq (n : Nat) (node : Nat → NodeRec) : allChildren n node = (slots n).filterMap (childAt node) := by
  rw [slots, allChildren, SProd.sprod, List.instSProd]
  simp only [List.product, List.filterMap_flatMap, List.filterMap_map]
  exact congrArg (List.flatMap · _) (funext fun i => (node i).children_eq)

/-- In a list without repetition exactly one element is counted when exactly one meets the test. -/
theorem countP_eq_one_iff {α : Type} [DecidableEq α] {l : List α} (hl : l.Nodup) (p : α → Bool) :
    l.countP p = 1 ↔ ∃! a, a ∈ l ∧ p a = true := by
  rw [List.countP_eq_length_filter, ← List.toFinset_card_of_nodup (hl.filter p), Finset.card_eq_one_iff_existsUnique]
  simp only [List.mem_toFinset, List.mem_filter]

theorem count_allChildren_eq_one_iff {n : Nat} {node : Nat → NodeRec} {j : Nat} :
    (allChildren n node).count j = 1 ↔
      ∃! slot : Nat × Bool, slot.1 < n ∧ ∃ c, (node slot.1).child slot.2 = some c ∧ c.toNat = j := by
  rw [allChildren_eq, List.count_filterMap, countP_eq_one_iff (slots_nodup n)]
  simp only [mem_slots, beq_iff_eq, childAt_eq_some_iff]

/-! ### WF1 to WF4 (R66) -/

section Rules

variable {n : Nat} {node : Nat → NodeRec}

theorem wf1_iff :
    wf1 n node = true ↔ ∀ i side c, i < n → (node i).child side = some c → i < c.toNat ∧ c.toNat < n := by
  simp only [wf1, List.all_eq_true, List.mem_range, decide_eq_true_eq, NodeRec.mem_children_iff]
  exact ⟨fun h i side c hi hc => h i hi c.toNat ⟨side, c, hc, rfl⟩,
    fun h i hi _ ⟨side, c, hc, heq⟩ => heq ▸ h i side c hi hc⟩

theorem wf2_iff :
    wf2 n node = true ↔ ∀ j, 1 ≤ j → j < n →
      ∃! slot : Nat × Bool, slot.1 < n ∧ ∃ c, (node slot.1).child slot.2 = some c ∧ c.toNat = j := by
  simp only [wf2, List.all_eq_true, List.mem_range, Bool.or_eq_true, beq_iff_eq, count_allChildren_eq_one_iff]
  exact ⟨fun h j hj hn => (h j hn).resolve_left (by omega), fun h j hn => (Nat.eq_zero_or_pos j).imp_right (h j · hn)⟩

theorem NodeRec.strict_iff (r : NodeRec) :
    r.strict = true ↔ (r.isLeaf = false → (r.child false).isSome = true ∧ (r.child true).isSome = true) := by
  cases r with
  | leaf v => simp [NodeRec.strict, NodeRec.isLeaf]
  | int hasL left hasR right => cases hasL <;> cases hasR <;> simp [NodeRec.strict, NodeRec.isLeaf, NodeRec.child]

theorem wf3_iff :
    wf3 n node = true ↔
      (∀ i, i < n → (node i).isLeaf = false →
        ((node i).child false).isSome = true ∧ ((node i).child true).isSome = true) ∨
      (n = 2 ∧ node 0 = .int true 1 false 0 ∧ (node 1).isLeaf = true) := by
  simp only [wf3, Bool.or_eq_true, Bool.and_eq_true, List.all_eq_true, List.mem_range, NodeRec.strict_iff, beq_iff_eq,
    and_assoc]

theorem NodeRec.leafValue_eq_some_iff {r : NodeRec} {v : Byte} : r.leafValue = some v ↔ r = .leaf v := by
  cases r <;> simp [NodeRec.leafValue]

theorem wf4_iff :
    wf4 n node = true ↔ ∀ i j v, i < n → j < n → node i = .leaf v → node j = .leaf v → i = j := by
  have hsymm : Std.Symm fun i j => ∀ v, node i = .leaf v → ∀ w, node j = .leaf w → v ≠ w :=
    ⟨fun _ _ h v hv w hw => (h w hw v hv).symm⟩
  rw [wf4, decide_eq_true_eq, leafValues, List.Nodup, List.pairwise_filterMap]
  simp only [NodeRec.leafValue_eq_some_iff]
  rw [← List.nodup_range.pairwise_coe]
  simp only [Set.Pairwise, Set.mem_ofPred_eq, List.mem_range]
  refine ⟨fun h i j v hi hj hvi hvj => ?_, fun h i hi j hj hne v hv w hw hvw => ?_⟩
  · by_contra hne
    exact h hi hj hne v hvi v hvj rfl
  · exact hne (h i j v hi hj hv (hvw ▸ hw))

theorem treeWF_iff :
    treeWF n node = true ↔ n = 0 ∨ (wf1 n node = true ∧ wf2 n node = true ∧ wf3 n node = true ∧ wf4 n node = true) := by
  simp only [treeWF, Bool.or_eq_true, Bool.and_eq_true, beq_iff_eq, and_assoc]

end Rules

/-- Settles O24: rule by rule, the parent slots of a record counted in the list of all slots. -/
theorem treeCheckIsWF : Obligations.TreeCheckIsWF := by
  unfold Obligations.TreeCheckIsWF
  intro n node
  rw [treeWF_iff, wf1_iff, wf2_iff, wf3_iff, wf4_iff]

end Sys2Proof.Machine
end

section
/-! SUPPORT. Paths of a well-formed tree (40 R65) and the code table (R67): a path names one record and a record has one
path, so the traversal gives each leaf value its path; which code starts another and how long a code is
follow. -/

namespace Sys2Proof.Machine

open Sys2Proof

/-! ### Going down from a record -/

/-- The record reached from `i` along the sides `p`, if every slot on the way has a child. -/
def descend (node : Nat → NodeRec) : BitString → Nat → Option Nat
  | [], i => some i
  | side :: p, i => ((node i).child side).bind fun c => descend node p c.toNat

@[simp] theorem descend_nil (node : Nat → NodeRec) (i : Nat) : descend node [] i = some i := rfl

theorem descend_cons_eq_some_iff {node : Nat → NodeRec} {side : Bool} {p : BitString} {i j : Nat} :
    descend node (side :: p) i = some j ↔ ∃ c, (node i).child side = some c ∧ descend node p c.toNat = some j :=
  Option.bind_eq_some_iff

theorem descend_append (node : Nat → NodeRec) (p q : BitString) (i : Nat) :
    descend node (p ++ q) i = (descend node p i).bind (descend node q) := by
  induction p generalizing i with
  | nil => rfl
  | cons side p ih =>
    rw [List.cons_append, descend, descend, Option.bind_assoc]
    exact congrArg _ (funext fun c => ih c.toNat)

/-- A record with a child is no leaf. -/
theorem NodeRec.isLeaf_of_child {r : NodeRec} {side : Bool} {c : NodeIndex} (h : r.child side = some c) :
    r.isLeaf = false := by
  cases r with
  | leaf v => cases h
  | int hasL left hasR right => rfl

/-- Nothing lies below a leaf: the only way down from it is the empty one. -/
theorem eq_nil_of_descend_leaf {node : Nat → NodeRec} {i j : Nat} {v : Byte} (hleaf : node i = .leaf v) {p : BitString}
    (h : descend node p i = some j) : p = [] := by
  cases p with
  | nil => rfl
  | cons side p =>
    obtain ⟨c, hc, -⟩ := descend_cons_eq_some_iff.mp h
    exact absurd (NodeRec.isLeaf_of_child hc) (by simp [hleaf, NodeRec.isLeaf])

/-- A root path leads from the root to its record. -/
theorem RootPath.descend {n : Nat} {node : Nat → NodeRec} {j : Nat} {p : BitString} (h : RootPath n node j p) :
    descend node p 0 = some j := by
  induction h with
  | root => rfl
  | slot i p side c _ _ hc ih =>
    rw [descend_append, ih]
    exact descend_cons_eq_some_iff.mpr ⟨c, hc, rfl⟩

/-! ### Paths of a well-formed tree (R65) -/

section WellFormedTree

variable {n : Nat} {node : Nat → NodeRec} (h : treeWF n node = true)
include h

theorem treeWF_rules (hn : n ≠ 0) : wf1 n node = true ∧ wf2 n node = true ∧ wf3 n node = true ∧ wf4 n node = true :=
  (treeWF_iff.mp h).resolve_left hn

/-- WF4: a value stands on one leaf. -/
theorem treeWF_leaf_unique {i j : Nat} {v : Byte} (hi : i < n) (hj : j < n) (hvi : node i = .leaf v)
    (hvj : node j = .leaf v) : i = j := by
  obtain ⟨-, -, -, hwf4⟩ := treeWF_rules h (by omega)
  exact wf4_iff.mp hwf4 i j v hi hj hvi hvj

/-- WF2: a record but the root has a parent slot. -/
theorem treeWF_parent {j : Nat} (hj : 1 ≤ j) (hn : j < n) :
    ∃ i side c, i < n ∧ (node i).child side = some c ∧ c.toNat = j := by
  obtain ⟨-, hwf2, -, -⟩ := treeWF_rules h (by omega)
  obtain ⟨⟨i, side⟩, ⟨hi, c, hc, hcj⟩, -⟩ := wf2_iff.mp hwf2 j hj hn
  exact ⟨i, side, c, hi, hc, hcj⟩

/-- WF2: a child stands in one slot. -/
theorem treeWF_slot_unique {i i' : Nat} {side side' : Bool} {c : NodeIndex} (hi : i < n) (hi' : i' < n)
    (hc : (node i).child side = some c) (hc' : (node i').child side' = some c) : i = i' ∧ side = side' := by
  obtain ⟨hlt, hn⟩ := treeWF_child h hi hc
  obtain ⟨-, hwf2, -, -⟩ := treeWF_rules h (by omega)
  have hslot := (wf2_iff.mp hwf2 c.toNat (by omega) hn).unique (y₁ := (i, side)) (y₂ := (i', side'))
    ⟨hi, c, hc, rfl⟩ ⟨hi', c, hc', rfl⟩
  exact Prod.mk.inj hslot

/-- WF3: a tree but the special shape is strict. -/
theorem treeWF_strict_or_special (hn : n ≠ 0) :
    (∀ i, i < n → (node i).isLeaf = false → ∀ side, ((node i).child side).isSome = true) ∨ n = 2 := by
  obtain ⟨-, -, hwf3, -⟩ := treeWF_rules h hn
  refine (wf3_iff.mp hwf3).imp (fun hstrict i hi hint side => ?_) (·.1)
  obtain ⟨hleft, hright⟩ := hstrict i hi hint
  cases side with
  | false => exact hleft
  | true => exact hright

/-- By WF1 a record stands at or above its depth, and inside the tree. -/
theorem RootPath.length_le {j : Nat} {p : BitString} (hp : RootPath n node j p) : p.length ≤ j := by
  induction hp with
  | root => exact Nat.le_refl 0
  | slot i p side c _ hi hc ih =>
    have := treeWF_child h hi hc
    rw [List.length_append, List.length_singleton]
    omega

/-- Every record has a path: its parent's, which stands below it, and one side more. -/
theorem exists_rootPath {j : Nat} (hj : j < n) : ∃ p, RootPath n node j p := by
  induction j using Nat.strong_induction_on with
  | _ j ih =>
    obtain rfl | hpos := Nat.eq_zero_or_pos j
    · exact ⟨[], .root⟩
    · obtain ⟨i, side, c, hi, hc, rfl⟩ := treeWF_parent h hpos hj
      obtain ⟨p, hp⟩ := ih i (treeWF_child h hi hc).1 hi
      exact ⟨p ++ [side], .slot i p side c hp hi hc⟩

/-- A record has one path, because every child stands in one slot and the root in none. -/
theorem RootPath.unique {j : Nat} {p q : BitString} (hp : RootPath n node j p) (hq : RootPath n node j q) : p = q := by
  induction hp generalizing q with
  | root =>
    generalize hroot : (0 : Nat) = j at hq
    cases hq with
    | root => rfl
    | slot i q side c _ hi hc => have := treeWF_child h hi hc; omega
  | slot i p side c _ hi hc ih =>
    generalize hchild : c.toNat = j at hq
    cases hq with
    | root => have := treeWF_child h hi hc; omega
    | slot i' q side' c' hq hi' hc' =>
      obtain rfl : c = c' := BitVec.eq_of_toNat_eq hchild
      obtain ⟨rfl, rfl⟩ := treeWF_slot_unique h hi hi' hc hc'
      rw [ih hq]

end WellFormedTree

/-! ### Paths of leaf values (R67) -/

/-- The leaf of value `v` has the path `p`. -/
def LeafPath (n : Nat) (node : Nat → NodeRec) (v : Byte) (p : BitString) : Prop :=
  ∃ j, j < n ∧ node j = .leaf v ∧ RootPath n node j p

section LeafPaths

variable {n : Nat} {node : Nat → NodeRec} {u v : Byte} {p q : BitString}

theorem LeafPath.unique (h : treeWF n node = true) (hp : LeafPath n node v p) (hq : LeafPath n node v q) : p = q := by
  obtain ⟨i, hi, hvi, hp⟩ := hp
  obtain ⟨j, hj, hvj, hq⟩ := hq
  obtain rfl := treeWF_leaf_unique h hi hj hvi hvj
  exact hp.unique h hq

/-- A leaf's path starts no other leaf's path: it leads to the leaf, and nothing lies below a leaf. -/
theorem LeafPath.eq_of_prefix (hp : LeafPath n node u p) (hq : LeafPath n node v q) (hpq : p <+: q) : p = q := by
  obtain ⟨i, -, hleaf, hp⟩ := hp
  obtain ⟨j, -, -, hq⟩ := hq
  obtain ⟨r, rfl⟩ := hpq
  have hdown := hq.descend
  rw [descend_append, hp.descend] at hdown
  rw [eq_nil_of_descend_leaf hleaf hdown, List.append_nil]

/-- A path names one record, so a leaf path names one value. -/
theorem LeafPath.value_unique (hu : LeafPath n node u p) (hv : LeafPath n node v p) : u = v := by
  obtain ⟨i, -, hleafU, hpu⟩ := hu
  obtain ⟨j, -, hleafV, hpv⟩ := hv
  obtain rfl : i = j := Option.some.inj (hpu.descend.symm.trans hpv.descend)
  exact NodeRec.leaf.inj (hleafU.symm.trans hleafV)

end LeafPaths

/-! ### The traversal (R67) -/

/-- The entry is the code of the leaf of value `v`. -/
def LeafCode (n : Nat) (node : Nat → NodeRec) (v : Byte) (e : CodeEntry) : Prop :=
  ∃ p, LeafPath n node v p ∧ e.bits = leafCode p

/-- The table has at `v` the code of the leaf of value `v`. -/
def Coded (n : Nat) (node : Nat → NodeRec) (v : Byte) (table : Memory CodeEntry) : Prop :=
  ∃ e, Memory.read table v.toNat = some e ∧ LeafCode n node v e

/-- What a part of the traversal may do to the entry of `v`: leave it, or put the code of its leaf there. -/
def Updates (n : Nat) (node : Nat → NodeRec) (v : Byte) (table table' : Memory CodeEntry) : Prop :=
  Memory.read table' v.toNat = Memory.read table v.toNat ∨ Coded n node v table'

/-- `visit` on one side of a record: nothing when no child stands there. -/
def visitChild (node : Nat → NodeRec) (fuel i : Nat) (path : BitString) (side : Bool) (table : Memory CodeEntry) :
    Memory CodeEntry :=
  match (node i).child side with
  | none => table
  | some c => visit node fuel c.toNat (path ++ [side]) table

/-- On an internal record `visit` is the left side, then the right side. -/
theorem visit_of_not_leaf {node : Nat → NodeRec} {i : Nat} (h : (node i).isLeaf = false) (fuel : Nat) (path : BitString)
    (table : Memory CodeEntry) :
    visit node (fuel + 1) i path table =
      visitChild node fuel i path true (visitChild node fuel i path false table) := by
  cases hnode : node i with
  | leaf v => rw [hnode] at h; cases h
  | int hasL left hasR right =>
    rw [visit_int hnode, visitChild, visitChild, hnode]
    cases hasL <;> cases hasR <;> rfl

section Traversal

variable {n : Nat} {node : Nat → NodeRec} {v : Byte} {t t' t'' : Memory CodeEntry}

theorem Coded.updates (h : Coded n node v t) (hu : Updates n node v t t') : Coded n node v t' := by
  rcases hu with heq | hcoded
  · obtain ⟨e, he, hcode⟩ := h
    exact ⟨e, heq.trans he, hcode⟩
  · exact hcoded

theorem Updates.refl : Updates n node v t t := .inl rfl

theorem Updates.trans (h : Updates n node v t t') (h' : Updates n node v t' t'') : Updates n node v t t'' := by
  rcases h with heq | hcoded
  · exact h'.imp_left (·.trans heq)
  · exact .inr (hcoded.updates h')

/-- Writing a leaf's code at its value. -/
theorem coded_write {i : Nat} {path : BitString} (hi : i < n) (hp : RootPath n node i path) (hv : node i = .leaf v)
    (table : Memory CodeEntry) : Coded n node v (Memory.write table v.toNat { bits := leafCode path }) :=
  ⟨_, Memory.read_write_self _ _ _, path, ⟨i, hi, hv, hp⟩, rfl⟩

variable (h : treeWF n node = true)
include h

theorem visitChild_updates {fuel i : Nat} {path : BitString} (hi : i < n) (hp : RootPath n node i path) (side : Bool)
    (hvisit : ∀ j q table, j < n → RootPath n node j q → Updates n node v table (visit node fuel j q table))
    (table : Memory CodeEntry) : Updates n node v table (visitChild node fuel i path side table) := by
  unfold visitChild
  split
  · exact .refl
  · rename_i c hc
    exact hvisit _ _ _ (treeWF_child h hi hc).2 (.slot i path side c hp hi hc)

/-- All that the traversal from a record may do to an entry. -/
theorem visit_updates (v : Byte) {fuel i : Nat} {path : BitString} (hi : i < n) (hp : RootPath n node i path)
    (table : Memory CodeEntry) : Updates n node v table (visit node fuel i path table) := by
  induction fuel generalizing i path table with
  | zero => exact .refl
  | succ fuel ih =>
    cases hnode : node i with
    | leaf u =>
      rw [visit_leaf hnode]
      by_cases huv : v = u
      · exact .inr (huv ▸ coded_write hi hp hnode table)
      · exact .inl (Memory.read_write_of_ne _ _ (huv ∘ BitVec.eq_of_toNat_eq))
    | int hasL left hasR right =>
      have hside := fun side => visitChild_updates (v := v) h hi hp side fun _ _ table hj hq => ih hj hq table
      rw [visit_of_not_leaf (by rw [hnode]; rfl)]
      exact (hside false table).trans (hside true _)

/-- The traversal reaches every leaf below a record that is no deeper than its bound, and writes its code. -/
theorem visit_coded {fuel i j : Nat} {path q : BitString} (hi : i < n) (hp : RootPath n node i path)
    (hq : descend node q i = some j) (hj : node j = .leaf v) (hfuel : q.length < fuel) (table : Memory CodeEntry) :
    Coded n node v (visit node fuel i path table) := by
  induction fuel generalizing i path q table with
  | zero => omega
  | succ fuel ih =>
    cases q with
    | nil =>
      obtain rfl := Option.some.inj hq
      rw [visit_leaf hj]
      exact coded_write hi hp hj table
    | cons side q =>
      obtain ⟨c, hc, hdown⟩ := descend_cons_eq_some_iff.mp hq
      have hchild : ∀ table, Coded n node v (visitChild node fuel i path side table) := fun table => by
        rw [visitChild, hc]
        exact ih (treeWF_child h hi hc).2 (.slot i path side c hp hi hc) hdown (by simpa using hfuel) table
      rw [visit_of_not_leaf (NodeRec.isLeaf_of_child hc)]
      cases side with
      | false =>
        exact (hchild table).updates
          (visitChild_updates h hi hp true (fun _ _ table hj hq => visit_updates h v hj hq table) _)
      | true => exact hchild _

/-- What the code table of a well-formed tree has at `v`: the code of the leaf of value `v`, or what it had before. -/
theorem buildCodes_updates (v : Byte) (table : Memory CodeEntry) :
    Updates n node v table (buildCodes n node table) := by
  unfold buildCodes
  split
  · exact .refl
  · exact visit_updates h v (by omega) .root table

/-- Every leaf has its path as code: no path is longer than the bound of the traversal. -/
theorem buildCodes_read_leaf {p : BitString} (hp : LeafPath n node v p) (table : Memory CodeEntry) :
    Memory.read (buildCodes n node table) v.toNat = some { bits := leafCode p } := by
  obtain ⟨j, hj, hleaf, hroot⟩ := hp
  have hlen := hroot.length_le h
  obtain ⟨⟨bits⟩, hread, q, hq, hbits⟩ : Coded n node v (buildCodes n node table) := by
    rw [buildCodes, if_neg (by omega)]
    exact visit_coded h (by omega) .root hroot.descend hleaf (by omega) table
  obtain rfl := hq.unique h ⟨j, hj, hleaf, hroot⟩
  rw [hread, show bits = leafCode q from hbits]

/-- The entries of values no leaf holds are as before. -/
theorem buildCodes_read_other (hv : ∀ j, j < n → node j ≠ .leaf v) (table : Memory CodeEntry) :
    Memory.read (buildCodes n node table) v.toNat = Memory.read table v.toNat := by
  rcases buildCodes_updates h v table with heq | ⟨e, -, p, ⟨j, hj, hleaf, -⟩, -⟩
  · exact heq
  · exact absurd hleaf (hv j hj)

end Traversal

/-- Settles O27: the traversal from the root reaches every leaf and writes nothing else. -/
theorem builtCodesArePaths : Obligations.BuiltCodesArePaths := by
  unfold Obligations.BuiltCodesArePaths
  intro s hphase hwf
  exact ⟨_, exec_build_of_wf hphase hwf,
    fun j v p hj hv hp => buildCodes_read_leaf hwf ⟨j, hj, hv, hp⟩ s.code,
    fun j hj => exists_rootPath hwf hj, fun v hv => buildCodes_read_other hwf hv s.code⟩

/-! ### What the codes of an accepted BUILD can be (R69, R70) -/

/-- From a state that meets the invariant, an accepted BUILD had a well-formed tree, and every code is a leaf's. -/
theorem State.Inv.built_code {s t : State} (hs : s.Inv) (hexec : exec .build s = .next t) (hready : t.phase = .ready) :
    treeWF s.nnodes.toNat s.nodeAt = true ∧
      ∀ v e, t.codeAt v = some e → LeafCode s.nnodes.toNat s.nodeAt v e := by
  obtain ⟨hphase, hwf, rfl⟩ := exec_build_ready hexec hready
  refine ⟨hwf, fun v e he => ?_⟩
  change Memory.read (buildCodes s.nnodes.toNat s.nodeAt s.code) v.toNat = some e at he
  rcases buildCodes_updates hwf v s.code with heq | ⟨e', he', hcode⟩
  · rw [heq, hs.noCodeInLoad hphase] at he
    cases he
  · obtain rfl := Option.some.inj (he'.symm.trans he)
    exact hcode

theorem leafCode_of_ne_nil {p : BitString} (h : p ≠ []) : leafCode p = p := if_neg h

theorem leafCode_length_pos (p : BitString) : 1 ≤ (leafCode p).length := by
  by_cases hp : p = []
  · rw [hp]; exact Nat.le_refl 1
  · rw [leafCode_of_ne_nil hp]; exact List.length_pos_iff.mpr hp

section Codes

variable {n : Nat} {node : Nat → NodeRec} {u v : Byte} {e f : CodeEntry}

theorem LeafCode.length_pos (h : LeafCode n node v e) : 1 ≤ e.bits.length := by
  obtain ⟨p, -, hbits⟩ := h
  exact hbits ▸ leafCode_length_pos p

/-- When one leaf stands at the root it is the only leaf; otherwise codes are paths, and no leaf's path starts another. -/
theorem LeafCode.value_eq_of_prefix (he : LeafCode n node u e) (hf : LeafCode n node v f) (hpre : e.bits <+: f.bits) :
    u = v := by
  obtain ⟨p, hp, hebits⟩ := he
  obtain ⟨q, hq, hfbits⟩ := hf
  suffices hpq : p = q by subst hpq; exact hp.value_unique hq
  by_cases hpnil : p = []
  · subst hpnil
    exact hp.eq_of_prefix hq List.nil_prefix
  · by_cases hqnil : q = []
    · subst hqnil
      exact (hq.eq_of_prefix hp List.nil_prefix).symm
    · rw [hebits, hfbits, leafCode_of_ne_nil hpnil, leafCode_of_ne_nil hqnil] at hpre
      exact hp.eq_of_prefix hq hpre

end Codes

/-- Settles O28: a leaf's path starts no other leaf's path. -/
theorem builtCodesPrefixFree : Obligations.BuiltCodesPrefixFree := by
  unfold Obligations.BuiltCodesPrefixFree
  intro s t hs hexec hready
  obtain ⟨-, hcode⟩ := hs.built_code hexec hready
  exact ⟨fun u e he => List.length_pos_iff.mp (hcode u e he).length_pos,
    fun u v e f huv he hf hpre => huv ((hcode u e he).value_eq_of_prefix (hcode v f hf) hpre)⟩

/-! ### The length of a code (R70) -/

section Length

variable {n : Nat} {node : Nat → NodeRec}

/-- Below every record of a strict tree stands a leaf: going left rises through the records, and ends. -/
theorem exists_leaf_below (h : treeWF n node = true)
    (hstrict : ∀ i, i < n → (node i).isLeaf = false → ∀ side, ((node i).child side).isSome = true) {i : Nat}
    {p : BitString} (hi : i < n) (hp : RootPath n node i p) : ∃ v r, LeafPath n node v (p ++ r) := by
  induction hk : n - i using Nat.strong_induction_on generalizing i p with
  | _ k ih =>
    cases hnode : node i with
    | leaf v => exact ⟨v, [], i, hi, hnode, (List.append_nil p).symm ▸ hp⟩
    | int hasL left hasR right =>
      obtain ⟨c, hc⟩ := Option.isSome_iff_exists.mp (hstrict i hi (by rw [hnode]; rfl) false)
      obtain ⟨hlt, hcn⟩ := treeWF_child h hi hc
      obtain ⟨v, r, hv⟩ := ih (n - c.toNat) (by omega) hcn (.slot i p false c hp hi hc) rfl
      exact ⟨v, false :: r, by simpa using hv⟩

/-- The values of leaves that do not stand below the record of path `p`. -/
def Beside (n : Nat) (node : Nat → NodeRec) (p : BitString) (v : Byte) : Prop :=
  ∃ q, LeafPath n node v q ∧ ¬ p <+: q

/-- Beside a path of a strict tree stand as many leaves as it has steps: one below each sibling on the way (R70). -/
theorem exists_beside (h : treeWF n node = true)
    (hstrict : ∀ i, i < n → (node i).isLeaf = false → ∀ side, ((node i).child side).isSome = true) {j : Nat}
    {p : BitString} (hp : RootPath n node j p) :
    ∃ vs : List Byte, vs.Nodup ∧ vs.length = p.length ∧ ∀ v, v ∈ vs → Beside n node p v := by
  induction hp with
  | root => exact ⟨[], List.nodup_nil, rfl, by simp⟩
  | slot i p side c hp hi hc ih =>
    obtain ⟨vs, hnodup, hlen, hbeside⟩ := ih
    obtain ⟨c', hc'⟩ := Option.isSome_iff_exists.mp (hstrict i hi (NodeRec.isLeaf_of_child hc) !side)
    obtain ⟨w, r, hw⟩ := exists_leaf_below h hstrict (treeWF_child h hi hc').2 (.slot i p (!side) c' hp hi hc')
    have hnew : w ∉ vs := fun hmem => by
      obtain ⟨q, hq, hnot⟩ := hbeside w hmem
      obtain rfl := hq.unique h hw
      exact hnot ⟨[!side] ++ r, by simp⟩
    refine ⟨w :: vs, List.nodup_cons.mpr ⟨hnew, hnodup⟩, by simp [hlen], fun v hv => ?_⟩
    rcases List.mem_cons.mp hv with rfl | hv
    · exact ⟨_, hw, by simp⟩
    · obtain ⟨q, hq, hnot⟩ := hbeside v hv
      exact ⟨q, hq, fun hpre => hnot ((List.prefix_append p [side]).trans hpre)⟩

/-- There are 256 byte values. -/
theorem length_le_of_nodup_bytes {vs : List Byte} (h : vs.Nodup) : vs.length ≤ 256 :=
  h.length_le_card.trans_eq (FinEnum.card_eq_fintypeCard.symm.trans (FinEnum.card_bitVec 8))

/-- A leaf's path has at most 255 steps: in a strict tree that many other leaves stand beside it, and in the special
shape it has one (R70). -/
theorem LeafPath.length_le (h : treeWF n node = true) {v : Byte} {p : BitString} (hp : LeafPath n node v p) :
    p.length ≤ 255 := by
  have hpath := hp
  obtain ⟨j, hj, -, hroot⟩ := hpath
  rcases treeWF_strict_or_special h (by omega) with hstrict | rfl
  · obtain ⟨vs, hnodup, hlen, hbeside⟩ := exists_beside h hstrict hroot
    have hnew : v ∉ vs := fun hmem => by
      obtain ⟨q, hq, hnot⟩ := hbeside v hmem
      exact hnot (hp.unique h hq ▸ List.prefix_refl p)
    have hle := length_le_of_nodup_bytes (List.nodup_cons.mpr ⟨hnew, hnodup⟩)
    rw [List.length_cons, hlen] at hle
    omega
  · have := hroot.length_le h
    omega

theorem LeafCode.length_le (h : treeWF n node = true) {v : Byte} {e : CodeEntry} (he : LeafCode n node v e) :
    e.bits.length ≤ 255 := by
  obtain ⟨p, hp, hbits⟩ := he
  rw [hbits, leafCode]
  split
  · decide
  · exact hp.length_le h

end Length

/-- Settles O29: codes are leaf paths or "0", and both have 1 to 255 bits. -/
theorem builtCodesBounded : Obligations.BuiltCodesBounded := by
  unfold Obligations.BuiltCodesBounded
  intro s t hs hexec hready v e he
  obtain ⟨hwf, hcode⟩ := hs.built_code hexec hready
  have hle := (hcode v e he).length_le hwf
  refine ⟨(hcode v e he).length_pos, hle, ?_⟩
  rw [CodeEntry.len, BitVec.toNat_ofNat]
  omega

end Sys2Proof.Machine
end

section
/-! SUPPORT. The encode and pack family (41_encode_pack): unpacking undoes packing (R72, 42 R78), what ENC and FLUSH
answer (R73, R74), and the empty session (R77). -/

namespace Sys2Proof.Machine

open Sys2Proof

/-! ### Packing and unpacking (R72, 42 R78) -/

/-- The bytes packed hold exactly the string and its padding (R72). -/
theorem flatMap_bits8_pack (bits : BitString) :
    (pack bits).1.flatMap bits8 = bits ++ List.replicate (pack bits).2 false := by
  have hwhole : (bits ++ List.replicate (pack bits).2 false).length % 8 = 0 := by
    rw [List.length_append, List.length_replicate, pack_pad]; omega
  calc (pack bits).1.flatMap bits8
      = (wholeBytes ((bits ++ List.replicate (pack bits).2 false).length / 8)
          (bits ++ List.replicate (pack bits).2 false)).flatMap bits8 := rfl
    _ = _ := by rw [flatMap_bits8_wholeBytes (by omega), List.take_of_length_le (by omega)]

theorem pack_pad_lt (bits : BitString) : (pack bits).2 < 8 := Nat.mod_lt _ (by decide)

theorem pack_length (bits : BitString) : 8 * (pack bits).1.length = bits.length + (pack bits).2 := by
  rw [← flatMap_bits8_length, flatMap_bits8_pack, List.length_append, List.length_replicate]

/-- Settles O55: the bits of the bytes packed are the string and its padding, which unpacking takes off. -/
theorem unpackOfPack : Obligations.UnpackOfPack := by
  unfold Obligations.UnpackOfPack
  intro b
  refine ⟨?_, pack_pad_lt b, pack_length b⟩
  rw [unpack, flatMap_bits8_pack, pack_length, Nat.add_sub_cancel, List.take_left]

/-! ### ENC (R73, R76) -/

theorem State.pending_append_length (s : State) (code : BitString) :
    (s.pending ++ code).length = s.accn.toNat + code.length := by
  rw [List.length_append, State.pending_length]

theorem wholeBytes_getElem? {nb k : Nat} (h : k < nb) (bits : BitString) :
    (wholeBytes nb bits)[k]? = some (byte8 ((bits.drop (8 * k)).take 8)) := by
  simp [wholeBytes, h]

/-- The partial byte an ENC leaves: the bits after the whole bytes, filled with zeros. -/
theorem State.bits8_packBits_acc (s : State) (bits : BitString) :
    bits8 (s.packBits bits).acc =
      bits.drop (8 * (bits.length / 8)) ++ List.replicate (8 - (s.packBits bits).accn.toNat) false := by
  have hrest := length_drop_wholeBytes bits
  rw [State.packBits_acc, State.packBits_accn_toNat, bits8_leftAligned (by omega), hrest]

/-- An ENC changes `phase`, `icnt`, `ocnt`, `accn`, `acc` and OUT only. -/
theorem State.packBits_frame (s : State) (bits : BitString) :
    { s.packBits bits with
      phase := s.phase, icnt := s.icnt, ocnt := s.ocnt, accn := s.accn, acc := s.acc, out := s.out } = s := by
  obtain ⟨n, o, hput⟩ := s.putOuts_frame (wholeBytes (bits.length / 8) bits)
  rw [State.packBits, hput]

section

variable {s : State} {bits : BitString} (hroom : s.ocnt.toNat + bits.length / 8 ≤ s.outCap.toNat)

include hroom

theorem State.packBits_ocnt_toNat : (s.packBits bits).ocnt.toNat = s.ocnt.toNat + bits.length / 8 := by
  rw [State.packBits_ocnt, State.putOuts_ocnt_toNat (by rwa [wholeBytes_length]), wholeBytes_length]

/-- With room the whole bytes stand from the cursor on, and every other byte is as before. -/
theorem State.packBits_read (a : Nat) :
    Memory.read (s.packBits bits).out a =
      if s.ocnt.toNat ≤ a ∧ a < (s.packBits bits).ocnt.toNat then
        some (byte8 ((bits.drop (8 * (a - s.ocnt.toNat))).take 8))
      else Memory.read s.out a := by
  rw [State.packBits_out, State.putOuts_read (by rwa [wholeBytes_length]), wholeBytes_length,
    State.packBits_ocnt_toNat hroom]
  split
  · exact wholeBytes_getElem? (by omega) bits
  · rfl

end

theorem encBody_of_no_code {v : Byte} {s : State} (h : s.codeAt v = none) : encBody v s = .error .nocode := by
  rw [encBody, h]

theorem encBody_of_full {v : Byte} {s : State} {e : CodeEntry} (he : s.codeAt v = some e)
    (hfull : s.outCap.toNat < s.ocnt.toNat + (s.pending ++ e.bits).length / 8) : encBody v s = .error .ovf := by
  have hroom : ¬ s.roomFor ((s.pending ++ e.bits).length / 8) = true := by rw [State.roomFor_iff]; omega
  rw [encBody, he]
  exact if_neg hroom

/-- Settles O30: the answer is `packBits` of the pending bits and the code. -/
theorem encAppendsTheCode : Obligations.EncAppendsTheCode := by
  unfold Obligations.EncAppendsTheCode
  intro s v e hphase he hroom
  rw [← State.pending_append_length] at hroom ⊢
  refine ⟨s.packBits (s.pending ++ e.bits), ?_, rfl, rfl, State.packBits_ocnt_toNat hroom,
    State.packBits_accn_toNat _ _, State.packBits_read hroom, State.bits8_packBits_acc _ _, State.packBits_frame _ _⟩
  exact runCommand_ok (ne_of_ready_or_enc hphase).2.2 (by simpa using hphase) (encBody_of_room he hroom) _

/-- Settles O31: the body raises the fault, and the command frame enters it. -/
theorem encFaults : Obligations.EncFaults := by
  unfold Obligations.EncFaults
  intro s v hphase
  have henter : ∀ c, encBody v s = .error c → exec (.enc v) s = .next (s.enterFault c (encode (.enc v))) :=
    fun c hbody => runCommand_error (ne_of_ready_or_enc hphase).2.2 (by simpa using hphase) hbody _
  refine ⟨fun hnone => henter _ (encBody_of_no_code hnone), fun e he hfull => henter _ (encBody_of_full he ?_)⟩
  rwa [State.pending_append_length]

/-! ### FLUSH (R74) -/

theorem exec_flush_of_body {s t : State} (hphase : s.phase = .ready ∨ s.phase = .enc) (h : flushBody s = .ok t) :
    exec .flush s = .next t :=
  runCommand_ok (ne_of_ready_or_enc hphase).2.2 (by simpa using hphase) h _

theorem flushBody_of_full {s : State} (h : s.accn ≠ 0) (hfull : s.outCap.toNat ≤ s.ocnt.toNat) :
    flushBody s = .error .ovf := by
  have hroom : ¬ s.roomFor 1 = true := by rw [State.roomFor_iff]; omega
  rw [flushBody, if_neg h, if_neg hroom]

/-- Settles O32: with nothing pending no byte is written; otherwise the partial byte is, and its padding counted. -/
theorem flushPadsAndEnds : Obligations.FlushPadsAndEnds := by
  unfold Obligations.FlushPadsAndEnds
  intro s hphase hroom
  by_cases hidle : s.accn = 0
  · exact ⟨_, exec_flush_of_body hphase (flushBody_of_idle hidle), rfl, by simp [hidle], by simp [hidle], rfl, rfl,
      by simp [hidle], rfl⟩
  · have hlt : s.ocnt.toNat < s.outCap.toNat := hroom.resolve_left hidle
    refine ⟨_, exec_flush_of_body hphase (flushBody_of_room hidle hlt), rfl, BitVec.toNat_ofNat _ _, ?_, rfl, rfl,
      fun a => ?_, rfl⟩
    · rw [if_neg hidle]
      exact State.putOut_ocnt_toNat hlt s.acc
    · simp only [ne_eq, hidle, not_false_eq_true, true_and]
      exact Memory.read_write s.out s.ocnt.toNat a s.acc

/-- Settles O33: the body raises ERR_OVF, and the command frame enters the fault with the word of FLUSH. -/
theorem flushOverflows : Obligations.FlushOverflows := by
  unfold Obligations.FlushOverflows
  intro s hphase hpending hfull
  have hword : encode .flush = 0x06000000 := by decide
  rw [← hword]
  exact runCommand_error (ne_of_ready_or_enc hphase).2.2 (by simpa using hphase) (flushBody_of_full hpending hfull) _

/-! ### The empty session (R77) -/

/-- BUILD of the empty tree leaves the session as opened, in READY (R68). -/
theorem exec_build_openSession (s : State) : exec .build s.openSession = .next { s.openSession with phase := .ready } :=
  exec_build_of_wf rfl rfl

/-- DECEND of an empty payload, with no padding and the walk at the root, only ends the session (42 R83). -/
theorem exec_decend_of_empty {s : State} (hphase : s.phase = .ready ∨ s.phase = .dec) (hheld : s.holdv = false)
    (hpad : s.pad = 0) (hroot : s.cur = 0) :
    exec .decend s = .next { s with hold := 0, holdv := false, phase := .doneD } := by
  have hne : s.phase ≠ .fault := by rcases hphase with h | h <;> simp [h]
  refine runCommand_ok hne (by simpa using hphase) ?_ _
  rw [decendBody, if_neg (by simp [hheld]), if_pos hpad, endPayload, if_pos hroot]

/-- Settles O59: the empty tree is accepted; with nothing pending and no byte held, FLUSH and DECEND only end the
session. -/
theorem emptyInput : Obligations.EmptyInput := by
  unfold Obligations.EmptyInput
  intro s
  have hopen : ∀ i, execAll [.init, .build, i] s = execAll [i] { s.openSession with phase := .ready } := fun i => by
    rw [execAll_cons rfl, execAll_cons (exec_build_openSession s)]
  rw [hopen, hopen, execAll_cons (exec_flush_of_body (.inl rfl) (flushBody_of_idle rfl)),
    execAll_cons (exec_decend_of_empty (.inl rfl) rfl rfl rfl)]
  exact ⟨⟨_, rfl, rfl, rfl, rfl, rfl, rfl⟩, _, rfl, rfl, rfl⟩

end Sys2Proof.Machine
end

section
/-! SUPPORT. The walk is `decode` (42_unpack_decode R79, R80): on any bits it emits the symbols `decodeFrom` gives and
ends where it ends, or raises the first fault in bit order. The three lemmas `walkBits_of_decode`,
`walkBits_of_overflow` and `walkBits_of_no_child` say this once, for every command and every session. -/

namespace Sys2Proof.Machine

open Sys2Proof

/-! ### One bit of `decode` and of the walk -/

/-- What one bit meets at record `c`: no child on its side, a leaf, or an internal record. -/
inductive BitMeets (n : Nat) (node : Nat → NodeRec) (b : Bool) (c : Nat) : Prop where
  | noChild (h : n = 0 ∨ (node c).child b = none)
  | leaf (d : NodeIndex) (v : Byte) (hn : n ≠ 0) (hchild : (node c).child b = some d) (hleaf : node d.toNat = .leaf v)
  | internal (d : NodeIndex) (hn : n ≠ 0) (hchild : (node c).child b = some d) (hint : (node d.toNat).isLeaf = false)

theorem bitMeets (n : Nat) (node : Nat → NodeRec) (b : Bool) (c : Nat) : BitMeets n node b c := by
  by_cases hn : n = 0
  · exact .noChild (.inl hn)
  · cases hchild : (node c).child b with
    | none => exact .noChild (.inr hchild)
    | some d =>
      cases hnode : node d.toNat with
      | leaf v => exact .leaf d v hn hchild hnode
      | int hasL left hasR right => exact .internal d hn hchild (by rw [hnode]; rfl)

section Decode

variable {n : Nat} {node : Nat → NodeRec} {b : Bool} {c : Nat} {d : NodeIndex} {v : Byte}

theorem decodeFrom_of_no_child (h : n = 0 ∨ (node c).child b = none) (rest : BitString) :
    decodeFrom n node (b :: rest) c = none := by
  by_cases hn : n = 0
  · rw [decodeFrom, if_pos hn]
  · rw [decodeFrom, if_neg hn, h.resolve_left hn]

theorem decodeFrom_of_leaf (hn : n ≠ 0) (hchild : (node c).child b = some d) (hleaf : node d.toNat = .leaf v)
    (rest : BitString) :
    decodeFrom n node (b :: rest) c = (decodeFrom n node rest 0).map fun r => (v :: r.1, r.2) := by
  rw [decodeFrom, if_neg hn, hchild]
  simp only [hleaf, NodeRec.leafValue]

theorem decodeFrom_of_internal (hn : n ≠ 0) (hchild : (node c).child b = some d) (hint : (node d.toNat).isLeaf = false)
    (rest : BitString) : decodeFrom n node (b :: rest) c = decodeFrom n node rest d.toNat := by
  rw [decodeFrom, if_neg hn, hchild]
  cases hnode : node d.toNat with
  | leaf v => rw [hnode] at hint; cases hint
  | int hasL left hasR right => simp only [hnode, NodeRec.leafValue]

/-- After a leaf, `decode` answers its value and then what the rest gives from the root. -/
theorem decodeFrom_of_leaf_eq_some_iff (hn : n ≠ 0) (hchild : (node c).child b = some d)
    (hleaf : node d.toNat = .leaf v) {rest : BitString} {symbols : List Byte} {e : Nat} :
    decodeFrom n node (b :: rest) c = some (symbols, e) ↔
      ∃ tail, decodeFrom n node rest 0 = some (tail, e) ∧ v :: tail = symbols := by
  rw [decodeFrom_of_leaf hn hchild hleaf, Option.map_eq_some_iff]
  constructor
  · rintro ⟨⟨tail, e'⟩, htail, heq⟩
    obtain ⟨hsymbols, rfl⟩ := Prod.mk.inj heq
    exact ⟨tail, htail, hsymbols⟩
  · rintro ⟨tail, htail, rfl⟩
    exact ⟨(tail, e), htail, rfl⟩

/-- `decode` on two strings is `decode` on the first, then on the second from where the first ended. -/
theorem decodeFrom_append (bits rest : BitString) :
    decodeFrom n node (bits ++ rest) c =
      (decodeFrom n node bits c).bind fun r => (decodeFrom n node rest r.2).map fun q => (r.1 ++ q.1, q.2) := by
  induction bits generalizing c with
  | nil => simp [decodeFrom]
  | cons b bits ih =>
    rw [List.cons_append]
    cases bitMeets n node b c with
    | noChild h => rw [decodeFrom_of_no_child h, decodeFrom_of_no_child h]; rfl
    | leaf d v hn hchild hleaf =>
      rw [decodeFrom_of_leaf hn hchild hleaf, decodeFrom_of_leaf hn hchild hleaf, ih]
      cases decodeFrom n node bits 0 <;> simp [Function.comp_def]
    | internal d hn hchild hint =>
      rw [decodeFrom_of_internal hn hchild hint, decodeFrom_of_internal hn hchild hint, ih]

/-- Initial bits give no more symbols than the whole string. -/
theorem decodeFrom_take_length_le {bits : BitString} {k e e' : Nat} {symbols initial : List Byte}
    (h : decodeFrom n node bits c = some (symbols, e)) (hk : decodeFrom n node (bits.take k) c = some (initial, e')) :
    initial.length ≤ symbols.length := by
  rw [← List.take_append_drop k bits, decodeFrom_append, hk, Option.bind_some, Option.map_eq_some_iff] at h
  obtain ⟨q, -, heq⟩ := h
  rw [← (Prod.mk.inj heq).1, List.length_append]
  exact Nat.le_add_right _ _

end Decode

/-- The walk emits a leaf's value and is back at the root (R80). -/
def State.emit (s : State) (v : Byte) : State := { s.putOut v with cur := 0 }

@[simp] theorem State.emit_cur (s : State) (v : Byte) : (s.emit v).cur = 0 := rfl
@[simp] theorem State.emit_nnodes (s : State) (v : Byte) : (s.emit v).nnodes = s.nnodes := rfl
@[simp] theorem State.emit_outCap (s : State) (v : Byte) : (s.emit v).outCap = s.outCap := rfl
@[simp] theorem State.emit_nodeAt (s : State) (v : Byte) : (s.emit v).nodeAt = s.nodeAt := rfl

theorem State.emit_ocnt_toNat {s : State} (h : s.ocnt.toNat < s.outCap.toNat) (v : Byte) :
    (s.emit v).ocnt.toNat = s.ocnt.toNat + 1 := State.putOut_ocnt_toNat h v

/-- Appending does not look at `cur`. -/
theorem State.putOuts_with_cur (s : State) (c : NodeIndex) (bs : List Byte) :
    { s with cur := c }.putOuts bs = { s.putOuts bs with cur := c } := by
  induction bs generalizing s with
  | nil => rfl
  | cons b bs ih => exact ih (s.putOut b)

theorem State.nnodes_eq_zero_iff (s : State) : s.nnodes = 0 ↔ s.nnodes.toNat = 0 := BitVec.toNat_inj.symm

section Walk

variable {b : Bool} {s : State} {d : NodeIndex} {v : Byte}

theorem walkBit_of_no_child (h : s.nnodes.toNat = 0 ∨ (s.nodeAt s.cur.toNat).child b = none) :
    walkBit b s = .error .traversal := by
  by_cases hn : s.nnodes = 0
  · rw [walkBit, if_pos hn]
  · rw [walkBit, if_neg hn, h.resolve_left (mt (State.nnodes_eq_zero_iff s).mpr hn)]

theorem walkBit_of_leaf (hn : s.nnodes.toNat ≠ 0) (hchild : (s.nodeAt s.cur.toNat).child b = some d)
    (hleaf : s.nodeAt d.toNat = .leaf v) :
    walkBit b s = if s.ocnt.toNat < s.outCap.toNat then .ok (s.emit v) else .error .ovf := by
  rw [walkBit, if_neg (mt (State.nnodes_eq_zero_iff s).mp hn), hchild]
  simp only [hleaf, State.roomFor_iff]
  rfl

theorem walkBit_of_internal (hn : s.nnodes.toNat ≠ 0) (hchild : (s.nodeAt s.cur.toNat).child b = some d)
    (hint : (s.nodeAt d.toNat).isLeaf = false) : walkBit b s = .ok { s with cur := d } := by
  rw [walkBit, if_neg (mt (State.nnodes_eq_zero_iff s).mp hn), hchild]
  cases hnode : s.nodeAt d.toNat with
  | leaf v => rw [hnode] at hint; cases hint
  | int hasL left hasR right => simp only [hnode]

theorem walkBits_cons_ok {t : State} (h : walkBit b s = .ok t) (rest : BitString) :
    walkBits (b :: rest) s = walkBits rest t := by
  rw [walkBits, h]

theorem walkBits_cons_error {e : ErrCode} (h : walkBit b s = .error e) (rest : BitString) :
    walkBits (b :: rest) s = .error e := by
  rw [walkBits, h]

theorem walkBits_append (bits rest : BitString) (s : State) :
    walkBits (bits ++ rest) s = (walkBits bits s).bind (walkBits rest) := by
  induction bits generalizing s with
  | nil => rfl
  | cons b bits ih =>
    rw [List.cons_append]
    cases hbit : walkBit b s with
    | ok t => rw [walkBits_cons_ok hbit, walkBits_cons_ok hbit, ih]
    | error e => rw [walkBits_cons_error hbit, walkBits_cons_error hbit]; rfl

end Walk

/-! ### All bits: the symbols, or the first fault (R80, 60 R90) -/

/-- The symbols that initial bits decode to fit in OUT, however many bits are taken. -/
def State.Fits (s : State) (bits : BitString) : Prop :=
  ∀ k symbols c, decodeFrom s.nnodes.toNat s.nodeAt (bits.take k) s.cur.toNat = some (symbols, c) →
    s.ocnt.toNat + symbols.length ≤ s.outCap.toNat

/-- The symbols of all the bits fit. -/
theorem State.Fits.whole {s : State} {bits : BitString} (h : s.Fits bits) {symbols : List Byte} {c : Nat}
    (hdecode : decodeFrom s.nnodes.toNat s.nodeAt bits s.cur.toNat = some (symbols, c)) :
    s.ocnt.toNat + symbols.length ≤ s.outCap.toNat :=
  h bits.length symbols c (by rwa [List.take_length])

/-- A walk whose symbols fit appends them and ends where `decode` ends. -/
theorem walkBits_of_decode {bits : BitString} {s : State} {symbols : List Byte} {c : Nat}
    (h : decodeFrom s.nnodes.toNat s.nodeAt bits s.cur.toNat = some (symbols, c))
    (hroom : s.ocnt.toNat + symbols.length ≤ s.outCap.toNat) :
    ∃ d : NodeIndex, d.toNat = c ∧ walkBits bits s = .ok { s.putOuts symbols with cur := d } := by
  induction bits generalizing s symbols with
  | nil =>
    obtain ⟨rfl, rfl⟩ := Prod.mk.inj (Option.some.inj h)
    exact ⟨s.cur, rfl, rfl⟩
  | cons b rest ih =>
    cases bitMeets s.nnodes.toNat s.nodeAt b s.cur.toNat with
    | noChild hno => rw [decodeFrom_of_no_child hno] at h; cases h
    | leaf d v hn hchild hleaf =>
      obtain ⟨tail, htail, rfl⟩ := (decodeFrom_of_leaf_eq_some_iff hn hchild hleaf).mp h
      rw [List.length_cons] at hroom
      have hlt : s.ocnt.toNat < s.outCap.toNat := by omega
      have hbit := walkBit_of_leaf hn hchild hleaf
      rw [if_pos hlt] at hbit
      obtain ⟨e, he, hwalk⟩ := ih (s := s.emit v) htail (by rw [State.emit_ocnt_toNat hlt, State.emit_outCap]; omega)
      refine ⟨e, he, ?_⟩
      rw [walkBits_cons_ok hbit, hwalk, State.emit, State.putOuts_with_cur]
      rfl
    | internal d hn hchild hint =>
      rw [decodeFrom_of_internal hn hchild hint] at h
      obtain ⟨e, he, hwalk⟩ := ih (s := { s with cur := d }) h hroom
      refine ⟨e, he, ?_⟩
      rw [walkBits_cons_ok (walkBit_of_internal hn hchild hint), hwalk, State.putOuts_with_cur]

/-- A walk with initial bits whose symbols do not fit raises ERR_OVF. -/
theorem walkBits_of_overflow {bits : BitString} {s : State} {k c : Nat} {symbols : List Byte}
    (h : decodeFrom s.nnodes.toNat s.nodeAt (bits.take k) s.cur.toNat = some (symbols, c))
    (hocnt : s.ocnt.toNat ≤ s.outCap.toNat) (hfull : s.outCap.toNat < s.ocnt.toNat + symbols.length) :
    walkBits bits s = .error .ovf := by
  induction bits generalizing s k symbols with
  | nil =>
    rw [List.take_nil] at h
    obtain ⟨rfl, -⟩ := Prod.mk.inj (Option.some.inj h)
    rw [List.length_nil] at hfull
    omega
  | cons b rest ih =>
    cases k with
    | zero =>
      obtain ⟨rfl, -⟩ := Prod.mk.inj (Option.some.inj h)
      rw [List.length_nil] at hfull
      omega
    | succ k =>
      rw [List.take_succ_cons] at h
      cases bitMeets s.nnodes.toNat s.nodeAt b s.cur.toNat with
      | noChild hno => rw [decodeFrom_of_no_child hno] at h; cases h
      | leaf d v hn hchild hleaf =>
        obtain ⟨tail, htail, rfl⟩ := (decodeFrom_of_leaf_eq_some_iff hn hchild hleaf).mp h
        rw [List.length_cons] at hfull
        have hbit := walkBit_of_leaf hn hchild hleaf
        by_cases hlt : s.ocnt.toNat < s.outCap.toNat
        · rw [if_pos hlt] at hbit
          rw [walkBits_cons_ok hbit]
          have hnext := State.emit_ocnt_toNat hlt v
          exact ih (s := s.emit v) htail (by rw [hnext]; exact hlt) (by rw [hnext, State.emit_outCap]; omega)
        · rw [if_neg hlt] at hbit
          exact walkBits_cons_error hbit rest
      | internal d hn hchild hint =>
        rw [decodeFrom_of_internal hn hchild hint] at h
        rw [walkBits_cons_ok (walkBit_of_internal hn hchild hint)]
        exact ih (s := { s with cur := d }) h hocnt hfull

/-- A walk that always has room but meets a bit without a child raises ERR_TRAVERSAL. -/
theorem walkBits_of_no_child {bits : BitString} {s : State}
    (h : decodeFrom s.nnodes.toNat s.nodeAt bits s.cur.toNat = none) (hfits : s.Fits bits) :
    walkBits bits s = .error .traversal := by
  induction bits generalizing s with
  | nil => cases h
  | cons b rest ih =>
    cases bitMeets s.nnodes.toNat s.nodeAt b s.cur.toNat with
    | noChild hno => exact walkBits_cons_error (walkBit_of_no_child hno) rest
    | leaf d v hn hchild hleaf =>
      rw [decodeFrom_of_leaf hn hchild hleaf, Option.map_eq_none_iff] at h
      have hroom : ∀ k tail e, decodeFrom s.nnodes.toNat s.nodeAt (rest.take k) 0 = some (tail, e) →
          s.ocnt.toNat + (tail.length + 1) ≤ s.outCap.toNat := fun k tail e htail =>
        hfits (k + 1) (v :: tail) e ((decodeFrom_of_leaf_eq_some_iff hn hchild hleaf).mpr ⟨tail, htail, rfl⟩)
      have hlt : s.ocnt.toNat < s.outCap.toNat := hroom 0 [] 0 rfl
      have hbit := walkBit_of_leaf hn hchild hleaf
      rw [if_pos hlt] at hbit
      rw [walkBits_cons_ok hbit]
      refine ih (s := s.emit v) h fun k tail e htail => ?_
      rw [State.emit_ocnt_toNat hlt, State.emit_outCap]
      have := hroom k tail e htail
      omega
    | internal d hn hchild hint =>
      rw [decodeFrom_of_internal hn hchild hint] at h
      rw [walkBits_cons_ok (walkBit_of_internal hn hchild hint)]
      refine ih (s := { s with cur := d }) h fun k symbols e hk => hfits (k + 1) symbols e ?_
      rw [List.take_succ_cons, decodeFrom_of_internal hn hchild hint]
      exact hk

end Sys2Proof.Machine
end

section
/-! SUPPORT. The commands of the unpack and decode family (42_unpack_decode): what SETPAD, DECB and DECEND answer (R81
to R83), and where they fault, from the walk on the byte held. -/

namespace Sys2Proof.Machine

open Sys2Proof

/-! ### What is held, and the end of a payload -/

/-- The byte held, if there is one (R20). -/
def State.held (s : State) : List Byte := if s.holdv then [s.hold] else []

theorem State.held_of_holdv {s : State} (h : s.holdv = true) : s.held = [s.hold] := if_pos h

theorem State.held_of_not_holdv {s : State} (h : s.holdv = false) : s.held = [] := if_neg (by simp [h])

/-- What a DECB leaves besides the walk: the new byte held and counted (R82). -/
def State.holdByte (s : State) (v : Byte) : State :=
  { s with hold := v, holdv := true, icnt := s.icnt + 1, phase := .dec }

/-- The last bits of a payload: the walk on them, which must end at the root (R83). -/
def finishPayload (bits : BitString) (s : State) : Except ErrCode State := (walkBits bits s).bind endPayload

theorem endPayload_at_root {s : State} (h : s.cur = 0) :
    endPayload s = .ok { s with hold := 0, holdv := false, phase := .doneD } := if_pos h

theorem endPayload_inside_code {s : State} (h : s.cur ≠ 0) : endPayload s = .error .trunc := if_neg h

/-- All the bits of a byte, less the padding (R78). -/
theorem unpack_singleton (b : Byte) (p : Nat) : unpack [b] p = (bits8 b).take (8 - p) := by
  simp [unpack]

/-- DECB: the walk on what is held, then the new byte is held. -/
theorem decbBody_eq (v : Byte) (s : State) :
    decbBody v s = (walkBits (s.held.flatMap bits8) s).map (State.holdByte · v) := by
  cases hheld : s.holdv with
  | false =>
    rw [decbBody, hheld, State.held_of_not_holdv hheld]
    rfl
  | true =>
    have hbits : (bits8 s.hold).take 8 = bits8 s.hold := List.take_of_length_le (by simp)
    rw [decbBody, if_pos hheld, walkHeld, hbits, State.held_of_holdv hheld, List.flatMap_singleton]
    cases walkBits (bits8 s.hold) s <;> rfl

/-- DECEND: ERR_PAD when padding has no byte, else the last bits of the payload. -/
theorem decendBody_eq (s : State) :
    decendBody s =
      if s.held = [] ∧ s.pad ≠ 0 then .error .pad else finishPayload (unpack s.held s.pad.toNat) s := by
  cases hheld : s.holdv with
  | false =>
    rw [decendBody, if_neg (by simp [hheld]), State.held_of_not_holdv hheld]
    by_cases hpad : s.pad = 0
    · rw [if_pos hpad, if_neg (by simp [hpad])]
      simp [unpack, finishPayload, walkBits, Except.bind]
    · rw [if_neg hpad, if_pos ⟨rfl, hpad⟩]
  | true =>
    rw [decendBody, if_pos hheld, State.held_of_holdv hheld, if_neg (by simp), unpack_singleton, walkHeld,
      finishPayload]
    cases walkBits ((bits8 s.hold).take (8 - s.pad.toNat)) s <;> rfl

section Finish

variable {bits : BitString} {s : State}

/-- Symbols that fit, and an end at the root. -/
theorem finishPayload_of_decode {symbols : List Byte}
    (h : decodeFrom s.nnodes.toNat s.nodeAt bits s.cur.toNat = some (symbols, 0))
    (hroom : s.ocnt.toNat + symbols.length ≤ s.outCap.toNat) :
    finishPayload bits s =
      .ok { s.putOuts symbols with cur := 0, hold := 0, holdv := false, phase := .doneD } := by
  obtain ⟨d, hd, hwalk⟩ := walkBits_of_decode h hroom
  obtain rfl : d = 0 := BitVec.eq_of_toNat_eq hd
  rw [finishPayload, hwalk]
  exact endPayload_at_root rfl

/-- Symbols that fit, and an end inside a code. -/
theorem finishPayload_inside_code {symbols : List Byte} {c : Nat}
    (h : decodeFrom s.nnodes.toNat s.nodeAt bits s.cur.toNat = some (symbols, c))
    (hroom : s.ocnt.toNat + symbols.length ≤ s.outCap.toNat) (hc : c ≠ 0) : finishPayload bits s = .error .trunc := by
  obtain ⟨d, rfl, hwalk⟩ := walkBits_of_decode h hroom
  rw [finishPayload, hwalk]
  exact endPayload_inside_code fun hroot => hc (by rw [show d = 0 from hroot]; rfl)

/-- A fault of the walk is the fault of the command. -/
theorem finishPayload_of_walk_error {e : ErrCode} (h : walkBits bits s = .error e) :
    finishPayload bits s = .error e := by
  rw [finishPayload, h]
  rfl

end Finish

/-! ### The command frame of the three commands -/

section Frame

variable {s : State} (hphase : s.phase = .ready ∨ s.phase = .dec)
include hphase

theorem exec_decb_ok {t : State} {v : Byte} (h : decbBody v s = .ok t) : exec (.decb v) s = .next t :=
  runCommand_ok (ne_of_ready_or_dec hphase).2.2 (by simpa using hphase) h _

theorem exec_decb_error {v : Byte} {c : ErrCode} (h : decbBody v s = .error c) :
    exec (.decb v) s = .next (s.enterFault c (encode (.decb v))) :=
  runCommand_error (ne_of_ready_or_dec hphase).2.2 (by simpa using hphase) h _

theorem exec_decend_ok {t : State} (h : decendBody s = .ok t) : exec .decend s = .next t :=
  runCommand_ok (ne_of_ready_or_dec hphase).2.2 (by simpa using hphase) h _

theorem exec_decend_error {c : ErrCode} (h : decendBody s = .error c) :
    exec .decend s = .next (s.enterFault c 0x09000000) := by
  have hword : encode .decend = 0x09000000 := by decide
  rw [← hword]
  exact runCommand_error (ne_of_ready_or_dec hphase).2.2 (by simpa using hphase) h _

end Frame

/-- Settles O34: the body of SETPAD in its one accepting phase. -/
theorem setpadChoosesDecode : Obligations.SetpadChoosesDecode := by
  unfold Obligations.SetpadChoosesDecode
  intro s p hphase
  exact runCommand_ok (s := s) (body := setpadBody p) (by simp [hphase]) (by simp [hphase]) rfl _

/-! ### DECB (R82) -/

theorem decbBody_of_not_holdv {s : State} (h : s.holdv = false) (v : Byte) : decbBody v s = .ok (s.holdByte v) := by
  rw [decbBody_eq, State.held_of_not_holdv h]
  rfl

theorem decbBody_of_holdv {s : State} (h : s.holdv = true) (v : Byte) :
    decbBody v s = (walkBits (bits8 s.hold) s).map (State.holdByte · v) := by
  rw [decbBody_eq, State.held_of_holdv h, List.flatMap_singleton]

/-- With a byte held, DECB faults as the walk on that byte does. -/
theorem exec_decb_of_walk_error {s : State} (hphase : s.phase = .ready ∨ s.phase = .dec) (hheld : s.holdv = true)
    (v : Byte) {c : ErrCode} (h : walkBits (bits8 s.hold) s = .error c) :
    exec (.decb v) s = .next (s.enterFault c (encode (.decb v))) :=
  exec_decb_error hphase (by rw [decbBody_of_holdv hheld, h]; rfl)

/-- Settles O35: with nothing held there is nothing to walk. -/
theorem decbHoldsTheFirstByte : Obligations.DecbHoldsTheFirstByte := by
  unfold Obligations.DecbHoldsTheFirstByte
  intro s v hphase hheld
  exact exec_decb_ok hphase (decbBody_of_not_holdv hheld v)

/-- What a walk that appended `symbols` leaves of OUT: they stand from the old cursor to the new one. -/
theorem State.putOuts_appends {s : State} {symbols : List Byte}
    (hroom : s.ocnt.toNat + symbols.length ≤ s.outCap.toNat) :
    (s.putOuts symbols).ocnt.toNat = s.ocnt.toNat + symbols.length ∧
      ∀ a, Memory.read (s.putOuts symbols).out a =
        if s.ocnt.toNat ≤ a ∧ a < (s.putOuts symbols).ocnt.toNat then symbols[a - s.ocnt.toNat]?
        else Memory.read s.out a := by
  have hocnt := State.putOuts_ocnt_toNat hroom
  exact ⟨hocnt, hocnt ▸ State.putOuts_read hroom⟩

/-- Settles O36: the walk on the byte held appends its symbols; then the new byte is held. -/
theorem decbDecodesTheHeldByte : Obligations.DecbDecodesTheHeldByte := by
  unfold Obligations.DecbDecodesTheHeldByte
  intro s v symbols c hphase hheld hdecode hroom
  obtain ⟨d, hd, hwalk⟩ := walkBits_of_decode hdecode hroom
  obtain ⟨hocnt, hread⟩ := State.putOuts_appends hroom
  have hbody : decbBody v s = .ok ({ s.putOuts symbols with cur := d }.holdByte v) := by
    rw [decbBody_of_holdv hheld, hwalk]
    rfl
  refine ⟨_, exec_decb_ok hphase hbody, rfl, rfl, ?icnt, hd, hocnt, hread, ?frame⟩
  case icnt =>
    show (s.putOuts symbols).icnt + 1 = s.icnt + 1
    rw [State.putOuts_icnt]
  case frame =>
    obtain ⟨n, o, hput⟩ := s.putOuts_frame symbols
    rw [State.holdByte, hput, ← hheld]

/-- Settles O37: the walk on the byte held raises the first fault in bit order. -/
theorem decbFaults : Obligations.DecbFaults := by
  unfold Obligations.DecbFaults
  intro s v hphase hheld hocnt
  exact ⟨fun k symbols c hdecode hfull =>
      exec_decb_of_walk_error hphase hheld v (walkBits_of_overflow hdecode hocnt hfull),
    fun hnone hfits => exec_decb_of_walk_error hphase hheld v (walkBits_of_no_child hnone hfits)⟩

/-! ### DECEND (R83) -/

theorem decendBody_of_not_holdv {s : State} (h : s.holdv = false) (hpad : s.pad = 0) : decendBody s = endPayload s := by
  rw [decendBody, if_neg (by simp [h]), if_pos hpad]

theorem decendBody_of_holdv {s : State} (h : s.holdv = true) :
    decendBody s = finishPayload ((bits8 s.hold).take (8 - s.pad.toNat)) s := by
  rw [decendBody_eq, State.held_of_holdv h, if_neg (by simp), unpack_singleton]

/-- Settles O38: an empty payload has no bits to walk and ends where it began, at the root. -/
theorem decendOfEmptyPayload : Obligations.DecendOfEmptyPayload := by
  unfold Obligations.DecendOfEmptyPayload
  intro s hphase hheld hpad hroot
  exact exec_decend_of_empty hphase hheld hpad hroot

/-- Settles O39: the walk on the bits that are not padding appends their symbols and ends at the root. -/
theorem decendDecodesTheLastByte : Obligations.DecendDecodesTheLastByte := by
  unfold Obligations.DecendDecodesTheLastByte
  intro s symbols hphase hheld hdecode hroom
  obtain ⟨hocnt, hread⟩ := State.putOuts_appends hroom
  refine ⟨_, exec_decend_ok hphase ((decendBody_of_holdv hheld).trans (finishPayload_of_decode hdecode hroom)),
    rfl, rfl, rfl, rfl, hocnt, hread, ?_⟩
  obtain ⟨n, o, hput⟩ := s.putOuts_frame symbols
  rw [hput]

/-- Settles O40: without a byte the padding, then the end check; with one the first fault of the walk, then the end
check. -/
theorem decendFaults : Obligations.DecendFaults := by
  unfold Obligations.DecendFaults
  intro s hphase hocnt
  refine ⟨fun hheld hpad => exec_decend_error hphase ?pad, fun hheld hpad hroot => exec_decend_error hphase ?empty,
    fun hheld => ⟨fun k symbols c hk hdecode hfull => exec_decend_error hphase ?ovf,
      fun hroom => ⟨fun hnone => exec_decend_error hphase ?traversal,
        fun symbols c hdecode hc => exec_decend_error hphase ?trunc⟩⟩⟩
  case pad => rw [decendBody_eq, State.held_of_not_holdv hheld, if_pos ⟨rfl, hpad⟩]
  case empty => rw [decendBody_of_not_holdv hheld hpad, endPayload_inside_code hroot]
  case ovf =>
    rw [decendBody_of_holdv hheld]
    refine finishPayload_of_walk_error (walkBits_of_overflow (k := k) (c := c) (symbols := symbols) ?_ hocnt hfull)
    rwa [List.take_take, Nat.min_eq_left hk]
  case traversal =>
    rw [decendBody_of_holdv hheld]
    refine finishPayload_of_walk_error (walkBits_of_no_child hnone fun k symbols c hdecode => ?_)
    rw [List.take_take] at hdecode
    exact hroom _ symbols c (Nat.min_le_right k _) hdecode
  case trunc =>
    rw [decendBody_of_holdv hheld]
    exact finishPayload_inside_code hdecode (hroom _ symbols c le_rfl hdecode) hc

/-! ### A bare leaf as root (R85) -/

/-- A leaf has no child, so any bit at it faults. -/
theorem walkBits_at_leaf {bits : BitString} {s : State} (hleaf : (s.nodeAt s.cur.toNat).isLeaf = true)
    (hbits : bits ≠ []) : walkBits bits s = .error .traversal := by
  obtain ⟨b, rest, rfl⟩ := List.exists_cons_of_ne_nil hbits
  refine walkBits_cons_error (walkBit_of_no_child (.inr ?_)) rest
  cases hchild : (s.nodeAt s.cur.toNat).child b with
  | none => rfl
  | some d => rw [NodeRec.isLeaf_of_child hchild] at hleaf; cases hleaf

/-- Settles O41: the walk stands at a leaf, and at least one bit of the byte is no padding. -/
theorem bareLeafRootDoesNotDecode : Obligations.BareLeafRootDoesNotDecode := by
  unfold Obligations.BareLeafRootDoesNotDecode
  intro s v hphase hheld hroot hleaf
  have hwalk : ∀ k, 0 < k → walkBits ((bits8 s.hold).take k) s = .error .traversal := fun k hk =>
    walkBits_at_leaf (by rw [hroot]; exact hleaf) (List.ne_nil_of_length_pos (by simp [hk]))
  have hall : (bits8 s.hold).take 8 = bits8 s.hold := List.take_of_length_le (by simp)
  refine ⟨exec_decb_of_walk_error (.inr hphase) hheld v (hall ▸ hwalk 8 (by decide)),
    exec_decend_error (.inr hphase) ?_⟩
  rw [decendBody_of_holdv hheld]
  exact finishPayload_of_walk_error (hwalk _ (Nat.sub_pos_of_lt s.pad.isLt))

end Sys2Proof.Machine
end

section
/-! SUPPORT. A whole decode session is unpack and decode of its payload (42_unpack_decode R84): the bytes come one
command each, the last one held back, and together the walks run over all the bits less the padding. What an encode
session packs, a decode session with the same tree gives back (R85). -/

namespace Sys2Proof.Machine

open Sys2Proof

/-! ### Holding a byte does not change what a walk does -/

/-- One bit looks at the tree, `cur`, `ocnt` and OUT only. -/
theorem walkBit_holdByte (b : Bool) (s : State) (v : Byte) :
    walkBit b (s.holdByte v) = (walkBit b s).map (State.holdByte · v) := by
  cases bitMeets s.nnodes.toNat s.nodeAt b s.cur.toNat with
  | noChild h =>
    rw [walkBit_of_no_child h, walkBit_of_no_child (s := s.holdByte v) h]
    rfl
  | leaf d x hn hchild hleaf =>
    rw [walkBit_of_leaf hn hchild hleaf, walkBit_of_leaf (s := s.holdByte v) hn hchild hleaf]
    by_cases hlt : s.ocnt.toNat < s.outCap.toNat
    · rw [if_pos hlt]
      exact if_pos hlt
    · rw [if_neg hlt]
      exact if_neg hlt
  | internal d hn hchild hint =>
    rw [walkBit_of_internal hn hchild hint, walkBit_of_internal (s := s.holdByte v) hn hchild hint]
    rfl

theorem walkBits_holdByte (bits : BitString) (s : State) (v : Byte) :
    walkBits bits (s.holdByte v) = (walkBits bits s).map (State.holdByte · v) := by
  induction bits generalizing s with
  | nil => rfl
  | cons b rest ih =>
    have hbit := walkBit_holdByte b s v
    cases hwalk : walkBit b s with
    | ok t =>
      rw [hwalk] at hbit
      rw [walkBits_cons_ok hwalk, walkBits_cons_ok hbit, ih]
    | error c =>
      rw [hwalk] at hbit
      rw [walkBits_cons_error hwalk, walkBits_cons_error hbit]
      rfl

/-- Input bytes counted (R17). -/
def State.countBytes (s : State) (n : Nat) : State := { s with icnt := s.icnt + BitVec.ofNat 32 n }

theorem State.countBytes_zero (s : State) : s.countBytes 0 = s := by
  simp [State.countBytes]

theorem State.countBytes_succ (s : State) (n : Nat) : (s.countBytes 1).countBytes n = s.countBytes (n + 1) := by
  rw [State.countBytes, State.countBytes, State.countBytes, State.mk.injEq]
  simp only [and_true, true_and]
  bv_omega

theorem map_countBytes_succ (r : Except ErrCode State) (n : Nat) :
    (r.map (State.countBytes · 1)).map (State.countBytes · n) = r.map (State.countBytes · (n + 1)) := by
  cases r with
  | ok s => exact congrArg Except.ok (s.countBytes_succ n)
  | error c => rfl

/-- The end of a session drops the byte held, so that only the count of it stays. -/
theorem endPayload_holdByte (s : State) (v : Byte) :
    endPayload (s.holdByte v) = (endPayload s).map (State.countBytes · 1) := by
  by_cases hroot : s.cur = 0
  · rw [endPayload_at_root hroot]
    exact endPayload_at_root hroot
  · rw [endPayload_inside_code hroot]
    exact endPayload_inside_code hroot

theorem finishPayload_holdByte (bits : BitString) (s : State) (v : Byte) :
    finishPayload bits (s.holdByte v) = (finishPayload bits s).map (State.countBytes · 1) := by
  rw [finishPayload, finishPayload, walkBits_holdByte]
  cases walkBits bits s with
  | ok t => exact endPayload_holdByte t v
  | error c => rfl

/-! ### The payload's bytes, one command each (R84) -/

/-- Padding of at most the last bytes leaves the bytes before them whole. -/
theorem unpack_append (first : List Byte) {last : List Byte} {p : Nat} (hp : p ≤ 8 * last.length) :
    unpack (first ++ last) p = first.flatMap bits8 ++ unpack last p := by
  have hfirst := flatMap_bits8_length first
  rw [unpack, unpack, List.flatMap_append, List.length_append, List.take_append, hfirst,
    List.take_of_length_le (by omega)]
  congr 2
  omega

theorem finishPayload_append (bits rest : BitString) (s : State) :
    finishPayload (bits ++ rest) s = (walkBits bits s).bind (finishPayload rest) := by
  rw [finishPayload, walkBits_append]
  cases walkBits bits s <;> rfl

/-- The state a session ends in: the one its last command leaves, or the fault raised on the way. -/
def State.EndsAs (t : State) : Except ErrCode State → Prop
  | .ok u => t = u
  | .error c => t.phase = .fault ∧ t.err = c

/-- A faulted session ignores the rest of its payload (60 R92). -/
theorem execAll_payload_in_fault {s : State} (h : s.phase = .fault) (bytes : List Byte) :
    execAll (bytes.map .decb ++ [.decend]) s = .next s := by
  induction bytes with
  | nil => exact execAll_cons (i := .decend) (runCommand_in_fault h _ _ _) []
  | cons b bytes ih => exact (execAll_cons (i := .decb b) (runCommand_in_fault h _ _ _) _).trans ih

/-- The bytes still to come and the one held are walked over as one bit string, less the padding. -/
theorem execAll_payload {s : State} {bytes : List Byte} (hphase : s.phase = .ready ∨ s.phase = .dec)
    (hpad : s.held ++ bytes ≠ [] ∨ s.pad = 0) :
    ∃ t, execAll (bytes.map .decb ++ [.decend]) s = .next t ∧
      t.EndsAs ((finishPayload (unpack (s.held ++ bytes) s.pad.toNat) s).map (State.countBytes · bytes.length)) := by
  induction bytes generalizing s with
  | nil =>
    rw [List.append_nil] at hpad ⊢
    have hbody : decendBody s = finishPayload (unpack s.held s.pad.toNat) s := by
      rw [decendBody_eq, if_neg fun hno => hpad.elim (· hno.1) hno.2]
    cases hfinish : finishPayload (unpack s.held s.pad.toNat) s with
    | ok u => exact ⟨u, execAll_cons (exec_decend_ok hphase (hbody.trans hfinish)) [], u.countBytes_zero.symm⟩
    | error c => exact ⟨_, execAll_cons (exec_decend_error hphase (hbody.trans hfinish)) [], rfl, rfl⟩
  | cons b bytes ih =>
    have hlast : s.pad.toNat ≤ 8 * (b :: bytes).length := by
      have := s.pad.isLt
      rw [List.length_cons]
      omega
    rw [unpack_append s.held hlast, finishPayload_append, List.map_cons, List.cons_append]
    have hbody := decbBody_eq b s
    cases hwalk : walkBits (s.held.flatMap bits8) s with
    | error c =>
      rw [hwalk] at hbody
      exact ⟨_, (execAll_cons (exec_decb_error hphase hbody) _).trans (execAll_payload_in_fault rfl bytes), rfl, rfl⟩
    | ok u =>
      rw [hwalk] at hbody
      have hpadU : u.pad = s.pad := by
        obtain ⟨c, n, o, rfl⟩ := walkBits_eq hwalk
        rfl
      obtain ⟨t, ht, hends⟩ := ih (s := u.holdByte b) (.inr rfl) (.inl (by simp [State.held, State.holdByte]))
      refine ⟨t, (execAll_cons (exec_decb_ok hphase hbody) _).trans ht, ?_⟩
      have hfinish : finishPayload (unpack ((u.holdByte b).held ++ bytes) (u.holdByte b).pad.toNat) (u.holdByte b) =
          (finishPayload (unpack (b :: bytes) s.pad.toNat) u).map (State.countBytes · 1) := by
        rw [← hpadU]
        exact finishPayload_holdByte _ u b
      rw [hfinish, map_countBytes_succ] at hends
      exact hends

/-! ### The session (R84) -/

/-- `u` is where the payload of a session with the tree of `s` starts: the padding count is known, and nothing is held,
walked over, written or counted. -/
structure State.StartsPayload (u s : State) (p : BitVec 3) : Prop where
  phase : u.phase = .ready ∨ u.phase = .dec
  pad : u.pad = p
  held : u.held = []
  cur : u.cur.toNat = 0
  out : u.OutIs []
  icnt : u.icnt = 0
  nnodes : u.nnodes = s.nnodes
  nodeAt : u.nodeAt = s.nodeAt
  outCap : u.outCap = s.outCap

/-- In READY nothing of a result stands in OUT. -/
theorem State.Inv.outIs_nil {s : State} (hs : s.Inv) (hphase : s.phase = .ready) : s.OutIs [] := by
  obtain ⟨hocnt, -⟩ := hs.countersFresh (.inr hphase)
  exact ⟨by rw [hocnt]; rfl, fun k hk => absurd hk (Nat.not_lt_zero k)⟩

theorem State.Inv.startsPayload {s : State} (hs : s.Inv) (hphase : s.phase = .ready) {q : Phase}
    (hq : q = .ready ∨ q = .dec) (p : BitVec 3) : { s with pad := p, phase := q }.StartsPayload s p := by
  obtain ⟨hheld, hroot⟩ := hs.decoderIdle (by simp [hphase]) (by simp [hphase])
  obtain ⟨-, hicnt⟩ := hs.countersFresh (.inr hphase)
  exact ⟨hq, rfl, State.held_of_not_holdv hheld, by rw [hroot]; rfl, hs.outIs_nil hphase, hicnt, rfl, rfl, rfl⟩

/-- SETPAD gives the padding count; without it the count is the 0 that stands in READY (R81). -/
theorem State.Inv.execAll_setpad {s : State} (hs : s.Inv) (hphase : s.phase = .ready) (setpad : Option (BitVec 3)) :
    ∃ u, execAll (setpad.toList.map .setpad) s = .next u ∧ u.StartsPayload s (setpad.getD 0) := by
  cases setpad with
  | none =>
    have hpad := hs.padUnwritten (.inr (.inl hphase))
    exact ⟨s, rfl, hpad ▸ hs.startsPayload hphase (.inl hphase) s.pad⟩
  | some p => exact ⟨_, execAll_cons (setpadChoosesDecode s p hphase) [], hs.startsPayload hphase (.inr rfl) p⟩

section Ending

variable {s t u : State} {p : BitVec 3} {bits : BitString} {m : Nat}

theorem State.EndsAs.fault (hends : t.EndsAs ((finishPayload bits u).map (State.countBytes · m))) {e : ErrCode}
    (h : finishPayload bits u = .error e) : t.phase = .fault ∧ t.err = e := by
  rw [h] at hends
  exact hends

/-- At the start of a payload the whole of OUT is room. -/
theorem State.StartsPayload.fits (hu : u.StartsPayload s p)
    (hroom : ∀ k symbols c, decodeFrom u.nnodes.toNat u.nodeAt (bits.take k) u.cur.toNat = some (symbols, c) →
      symbols.length ≤ u.outCap.toNat) : u.Fits bits := by
  intro k symbols c hk
  have hocnt : u.ocnt.toNat = 0 := hu.out.1
  rw [hocnt, Nat.zero_add]
  exact hroom k symbols c hk

/-- A payload that decodes to symbols that fit, and ends at the root, leaves exactly them in OUT. -/
theorem State.StartsPayload.done (hu : u.StartsPayload s p)
    (hends : t.EndsAs ((finishPayload bits u).map (State.countBytes · m))) (hfits : u.Fits bits) {symbols : List Byte}
    (h : decodeFrom u.nnodes.toNat u.nodeAt bits u.cur.toNat = some (symbols, 0)) :
    t.phase = .doneD ∧ t.OutIs symbols ∧ t.icnt = BitVec.ofNat 32 m := by
  rw [finishPayload_of_decode h (hfits.whole h)] at hends
  obtain rfl := hends
  refine ⟨rfl, hu.out.putOuts (hfits.whole h), ?_⟩
  show (u.putOuts symbols).icnt + _ = _
  rw [State.putOuts_icnt, hu.icnt]
  exact BitVec.zero_add _

end Ending

/-- Settles O57: the session ends as the walk over the whole payload does, which is decode of the unpacked bits. -/
theorem decodeSessionDecodes : Obligations.DecodeSessionDecodes := by
  unfold Obligations.DecodeSessionDecodes
  intro s setpad bytes hs hphase
  obtain ⟨u, hsetpad, hu⟩ := hs.execAll_setpad hphase setpad
  rw [List.append_assoc, execAll_append hsetpad, ← hu.pad, ← hu.nnodes, ← hu.nodeAt, ← hu.outCap]
  by_cases hempty : bytes = [] ∧ u.pad ≠ 0
  · obtain ⟨rfl, hpad⟩ := hempty
    have hbody : decendBody u = .error .pad := by rw [decendBody_eq, if_pos ⟨hu.held, hpad⟩]
    exact ⟨_, execAll_cons (exec_decend_error hu.phase hbody) [], fun _ _ => ⟨rfl, rfl⟩,
      fun h => h.elim (absurd rfl) (absurd · hpad)⟩
  · obtain ⟨t, ht, hends⟩ := execAll_payload (bytes := bytes) hu.phase (by rw [hu.held]; tauto)
    rw [hu.held, List.nil_append] at hends
    refine ⟨t, ht, fun hnil hpad => absurd ⟨hnil, hpad⟩ hempty, fun _ => ?_⟩
    have hocnt : u.ocnt.toNat = 0 := hu.out.1
    rw [← hu.cur]  -- `decode` starts at the root, and there `u` stands
    refine ⟨fun k symbols c hk hfull =>
      hends.fault (finishPayload_of_walk_error (walkBits_of_overflow hk (by omega) (by omega))), fun hroom => ?_⟩
    have hfits : u.Fits (unpack bytes u.pad.toNat) := hu.fits hroom
    refine ⟨fun hnone => hends.fault (finishPayload_of_walk_error (walkBits_of_no_child hnone hfits)),
      fun symbols c hdecode => ⟨fun hc => ?_, fun hc => ?_⟩⟩
    · exact hends.fault (finishPayload_inside_code hdecode (hfits.whole hdecode) (hu.cur ▸ hc))
    · obtain rfl : c = 0 := hc.trans hu.cur
      exact hu.done hends hfits hdecode

/-! ### Encoding and decoding with one tree (R85) -/

/-- The path of a leaf below a record, and then more bits, decode to its value and then from the root. -/
theorem decodeFrom_leaf_path {n : Nat} {node : Nat → NodeRec} (hn : n ≠ 0) {p : BitString} {i j : Nat} {v : Byte}
    (hp : p ≠ []) (hdown : descend node p i = some j) (hleaf : node j = .leaf v) (rest : BitString) :
    decodeFrom n node (p ++ rest) i = (decodeFrom n node rest 0).map fun r => (v :: r.1, r.2) := by
  induction p generalizing i with
  | nil => exact absurd rfl hp
  | cons side p ih =>
    obtain ⟨d, hchild, hdown⟩ := descend_cons_eq_some_iff.mp hdown
    rw [List.cons_append]
    by_cases hend : p = []
    · subst hend
      obtain rfl := Option.some.inj hdown
      exact decodeFrom_of_leaf hn hchild hleaf rest
    · have hint : (node d.toNat).isLeaf = false := by
        cases hnode : node d.toNat with
        | leaf u => exact absurd (eq_nil_of_descend_leaf hnode hdown) hend
        | int hasL left hasR right => rfl
      rw [decodeFrom_of_internal hn hchild hint]
      exact ih hend hdown

/-- Under the invariant a code is a leaf's (R67). -/
theorem State.Inv.leafCode {s : State} (hs : s.Inv) (hphase : s.phase = .ready) {v : Byte} {e : CodeEntry}
    (he : s.codeAt v = some e) : LeafCode s.nnodes.toNat s.nodeAt v e := by
  obtain ⟨hwf, hcode⟩ := hs.treeBuilt (by simp [hphase]) (by simp [hphase])
  rw [State.codeAt, hcode] at he
  rcases buildCodes_updates hwf v [] with heq | ⟨e', he', hleaf⟩
  · rw [heq] at he; cases he
  · obtain rfl := Option.some.inj (he'.symm.trans he)
    exact hleaf

/-- When the root is no leaf the codes of any symbols decode to these symbols and end at the root. -/
theorem State.Inv.decode_stream {s : State} (hs : s.Inv) (hphase : s.phase = .ready)
    (hint : (s.nodeAt 0).isLeaf = false) {symbols : List Byte} (hvalid : ∀ v, v ∈ symbols → s.codeValid v = true) :
    decodeFrom s.nnodes.toNat s.nodeAt (s.stream symbols) 0 = some (symbols, 0) := by
  induction symbols with
  | nil => rfl
  | cons v rest ih =>
    obtain ⟨e, he⟩ := Option.isSome_iff_exists.mp (hvalid v List.mem_cons_self)
    obtain ⟨p, ⟨j, hj, hleaf, hroot⟩, hbits⟩ := hs.leafCode hphase he
    have hp : p ≠ [] := fun hnil => by
      subst hnil
      obtain rfl := Option.some.inj hroot.descend
      rw [hleaf] at hint
      cases hint
    rw [State.stream_cons he, hbits, leafCode_of_ne_nil hp, decodeFrom_leaf_path (by omega) hp hroot.descend hleaf,
      ih fun u hu => hvalid u (List.mem_cons_of_mem v hu)]
    rfl

/-- What two states read of NODE agrees everywhere when it agrees on the records of the tree: above them it is one free
value for both (R22). -/
theorem State.nodeAt_eq_of_tree {s d : State} (hn : d.nnodes = s.nnodes)
    (hnode : ∀ i, i < s.nnodes.toNat → d.nodeAt i = s.nodeAt i) : d.nodeAt = s.nodeAt := by
  funext i
  by_cases hi : i < s.nnodes.toNat
  · exact hnode i hi
  · rw [State.nodeAt, State.nodeAt, hn, if_neg hi, if_neg hi]

/-- Settles O58: the payload unpacks to the codes of the symbols, which decode to the symbols. -/
theorem roundTrip : Obligations.RoundTrip := by
  unfold Obligations.RoundTrip
  intro s d symbols hs hd hphase hphaseD hn hnode hvalid hshape hroom hroomD
  obtain ⟨-, e, he, -, hout, hpad, -, -⟩ := encodeSessionPacks s symbols hs hphase hvalid hroom
  obtain ⟨hunpack, -, hlength⟩ := unpackOfPack (s.stream symbols)
  obtain ⟨t, ht, -, hends⟩ := decodeSessionDecodes d (some e.pad) (pack (s.stream symbols)).1 hd hphaseD
  have hdecode : decodeFrom s.nnodes.toNat s.nodeAt (s.stream symbols) 0 = some (symbols, 0) := by
    rcases hshape with rfl | hint
    · rfl
    · exact hs.decode_stream hphase hint hvalid
  have hpayload : (pack (s.stream symbols)).1 ≠ [] ∨ e.pad = 0 := by
    refine or_iff_not_imp_left.mpr fun hempty => BitVec.eq_of_toNat_eq ?_
    rw [not_not.mp hempty, List.length_nil] at hlength
    show e.pad.toNat = 0
    omega
  have hbits : unpack (pack (s.stream symbols)).1 e.pad.toNat = s.stream symbols := by rw [hpad, hunpack]
  have hends := hends hpayload
  simp only [Option.getD_some, hbits, hn, State.nodeAt_eq_of_tree hn hnode] at hends
  obtain ⟨-, hends⟩ := hends
  obtain ⟨hdone, hsymbols, -⟩ :=
    ((hends fun k initial c hk => (decodeFrom_take_length_le hdecode hk).trans hroomD).2 symbols 0 hdecode).2 rfl
  exact ⟨e, _, t, he, hout, ht, hdone, hsymbols⟩

end Sys2Proof.Machine
end

section
/-! SUPPORT. Proofs of the exceptions family (60_exceptions): ERR_SEQ (R88, R90), the precise entry into FAULT (R91), what
FAULT ignores (R92), the two ways out of it (R93), and the idle step (R97). -/

namespace Sys2Proof.Machine

open Sys2Proof

/-! ### Fault entry (R88, R90, R91) -/

theorem State.mem_acceptedIn_init (s : State) : s.phase ∈ acceptedIn .init := by
  cases s.phase <;> simp [acceptedIn]

/-- Settles O42: INIT is accepted in every phase, and the frame of every other command raises ERR_SEQ. -/
theorem wrongPhaseFaults : Obligations.WrongPhaseFaults := by
  unfold Obligations.WrongPhaseFaults
  intro i s hwf hphase hacc
  have hi : i ≠ .init := by
    rintro rfl
    exact hacc s.mem_acceptedIn_init
  rw [exec_eq_runCommand hi hwf]
  exact runCommand_wrong_phase hphase hacc _ _

/-- A command enters FAULT by raising a fault: its own effect leads to another phase. -/
theorem exec_enters_fault {i : Instr} {s t : State} (hs : s.phase ≠ .fault) (h : exec i s = .next t)
    (ht : t.phase = .fault) : ∃ c, c ≠ .none ∧ t = s.enterFault c (encode i) := by
  rcases exec_cases h with ⟨-, rfl⟩ | ⟨-, hf, -⟩ | ⟨-, -, hraised⟩ | ⟨-, -, hacc, hbody⟩
  · cases ht
  · exact absurd hf hs
  · exact hraised
  · exact absurd ((instrBody_ok_phase hacc hbody).symm.trans ht) (successPhase_ne_fault i)

/-- A word enters FAULT with itself as the word recorded: it is its command's word, or an illegal one. -/
theorem runWord_enters_fault {w : Word} {s t : State} (hs : s.phase ≠ .fault) (h : runWord w s = .next t)
    (ht : t.phase = .fault) : ∃ c, c ≠ .none ∧ t = s.enterFault c w := by
  rcases runWord_cases h with ⟨i, hdecode, hexec⟩ | ⟨e, -, ⟨hf, -⟩ | ⟨-, rfl⟩⟩
  · obtain ⟨-, rfl⟩ := decode_eq_ok_iff.mp hdecode
    exact exec_enters_fault hs hexec ht
  · exact absurd hf hs
  · exact ⟨.illcmd, by decide, rfl⟩

theorem State.resultByte_in_fault {s : State} (h : s.phase = .fault) (a : Nat) : s.resultByte a = none :=
  State.resultByte_outside_result (by simp [h])

/-- Settles O44: the word enters FAULT by fault entry, which changes three elements. -/
theorem faultEntryIsPrecise : Obligations.FaultEntryIsPrecise := by
  unfold Obligations.FaultEntryIsPrecise
  intro w s t hs h ht
  obtain ⟨c, hc, rfl⟩ := runWord_enters_fault hs h ht
  exact ⟨hc, rfl, State.resultByte_in_fault ht⟩

/-! ### In FAULT (R92) -/

theorem exec_in_fault {i : Instr} (hi : i ≠ .init) {s : State} (h : s.phase = .fault) : exec i s = .next s := by
  by_cases hwf : i.wf = true
  · rw [exec_eq_runCommand hi hwf]
    exact runCommand_in_fault h _ _ _
  · rw [exec_of_not_wf hwf]
    exact raiseFault_in_fault h _ _

theorem encode_init : encode .init = 0x01000000 := by decide

/-- Only the exact INIT word stands for INIT, so no other word does anything in FAULT. -/
theorem runWord_in_fault {w : Word} (hw : w ≠ 0x01000000) {s : State} (h : s.phase = .fault) :
    runWord w s = .next s := by
  cases hdecode : decode w with
  | ok i =>
    obtain ⟨-, hword⟩ := decode_eq_ok_iff.mp hdecode
    have hi : i ≠ .init := by
      rintro rfl
      exact hw (hword.symm.trans encode_init)
    rw [runWord_of_decode hdecode, exec_in_fault hi h]
  | error e => rw [runWord_of_illegal hdecode, raiseFault_in_fault h]

/-- Settles O45: words as `runWord_in_fault` says; a register read does not look at the phase. -/
theorem faultIsSticky : Obligations.FaultIsSticky := by
  unfold Obligations.FaultIsSticky
  exact fun s h => ⟨fun w hw => runWord_in_fault hw h, fun off ha => serve_regRead ((regAligned_iff off).mp ha) s⟩

/-! ### Out of FAULT (R93) -/

/-- In every phase the INIT word opens a session. -/
theorem runWord_init (s : State) : runWord 0x01000000 s = .next s.openSession :=
  runWord_of_decode (decode_eq_ok_iff.mpr ⟨rfl, encode_init⟩) s

/-- Settles O46: of all a step can do, only the INIT word and a reset change the phase FAULT. -/
theorem onlyInitOrResetLeavesFault : Obligations.OnlyInitOrResetLeavesFault := by
  unfold Obligations.OnlyInitOrResetLeavesFault
  intro s t hs h ht
  rcases step_cases h with ⟨-, rfl⟩ | ⟨w, rest, hbus, hword⟩ | ⟨rest, hbus, rfl⟩ | ⟨a, rest, -, -, -, hhost⟩
  · exact absurd hs ht
  · by_cases hw : w = 0x01000000
    · subst hw
      obtain rfl := Host.Outcome.next.inj ((runWord_init _).symm.trans hword)
      exact ⟨.inl (by rw [hbus, List.head?_cons]), s.takeAccess.openSession_fresh⟩
    · obtain rfl := Host.Outcome.next.inj ((runWord_in_fault hw (s := s.takeAccess) hs).symm.trans hword)
      exact absurd hs ht
  · exact ⟨.inr (by rw [hbus, List.head?_cons]), s.takeAccess.openSession_fresh⟩
  · exact absurd ((congrArg State.phase hhost).trans hs) ht

/-! ### The idle step (R97) -/

/-- Settles O9: with no access pending the step serves none. -/
theorem idleKeepsAllState : Obligations.IdleKeepsAllState := by
  unfold Obligations.IdleKeepsAllState
  exact fun _ => step_of_bus_nil

end Sys2Proof.Machine
end

section
/-! SUPPORT. Proof of the reset family (70_reset_and_hazards): the platform's reset (R98). -/

namespace Sys2Proof.Machine

open Sys2Proof

/-! ### Reset (R98) -/

/-- INIT opens a session in every phase (R61). -/
theorem exec_init (s : State) : exec .init s = .next s.openSession := rfl

/-- A reset opens a session in every phase. -/
theorem serve_reset (s : State) : serve .reset s = .next s.openSession := rfl

theorem step_of_reset {s : State} {rest : List HostAccess} (h : s.bus = .reset :: rest) :
    step s = .next ({ s with bus := rest, reply := .none } : State).openSession := by
  rw [step_of_bus_cons h, serve_reset]

/-- Settles O17: the reset, and INIT in its place, open a session in the state with the access taken off. -/
theorem resetAccess : Obligations.ResetAccess := by
  unfold Obligations.ResetAccess
  exact fun _ _ hbus => ⟨_, step_of_reset hbus, State.openSession_fresh _, exec_init _⟩

end Sys2Proof.Machine
end
